-- ==== Sys2Proof/Word.lean ====
section
/-! DEFINITION. The byte, the register index and `wrap8` (00_scope.md R8, R10, R11). -/

namespace Sys2Proof

/-- A register, memory cell, opcode or operand byte: 8 bits, unsigned (R8, R11). -/
abbrev Byte := BitVec 8

/-- The index of a general register, 0 to 7 (R8, R21). -/
abbrev Reg := Fin 8

/-- `wrap8(v) = v mod 256` of an exact natural number (R11). -/
def wrap8 (v : Nat) : Byte := BitVec.ofNat 8 v

/-- `wrap8` of an exact integer, which may be negative: the byte congruent to it modulo 256 (R11). -/
def wrap8Int (v : Int) : Byte := BitVec.ofInt 8 v

end Sys2Proof
end

