-- ==== Sys2Proof/Machine/Flags.lean ====
section
/-! DEFINITION. The flags register FL (10_state.md R29) and the comparison that computes it (41_alu.md R152). -/

namespace Sys2Proof.Machine

/-- E, bit 0 of FL: the last CMP found its operands equal. -/
def flagE (fl : Byte) : Bool := fl.getLsbD 0

/-- G, bit 1 of FL: the last CMP found the first operand greater. -/
def flagG (fl : Byte) : Bool := fl.getLsbD 1

/-- L, bit 2 of FL: the last CMP found the first operand less. -/
def flagL (fl : Byte) : Bool := fl.getLsbD 2

/-- All eight bits of FL after CMP of `a` with `b`, compared as unsigned values (R152). -/
def compareFlags (a b : Byte) : Byte :=
  if a = b then 0b00000001
  else if a.toNat > b.toNat then 0b00000010
  else 0b00000100

end Sys2Proof.Machine
end

