-- ==== Sys2Proof/Config.lean ====
section
/-! DEFINITION. The fixed parameters (00_scope.md R8) and the six named parameters, each with every value the
spec allows (R9). Which values stand at reset is said in Machine/Policy.lean. -/

namespace Sys2Proof

/-- `MEM_SIZE`: the memory has 256 cells, addresses 0 to 255 (R8). -/
def memSize : Nat := 256

/-- `SP_INDEX`: register 7 is the stack pointer (R8, R23). -/
def spIndex : Reg := 7

/-- `SP_RESET` (R8, R23). -/
def spReset : Byte := 0xF4

/-- `PC_RESET` (R8). -/
def pcReset : Nat := 0

/-- `LOAD_BASE`: the first address of the program image (R8, R44). -/
def loadBase : Nat := 0

/-- `UNKNOWN_OPCODE_POLICY` (R9, R116). -/
inductive UnknownOpcodePolicy where
  /-- report, then go on at the next byte -/
  | skip1
  /-- report, then the loop's general advance by bits 7:6, none when bit 4 is set -/
  | generic
  /-- report, then `F_UNKNOWN_OPCODE` -/
  | strict
  deriving DecidableEq, Repr

/-- `PC_OVERFLOW_POLICY` (R9, R14, R27). -/
inductive PcOverflowPolicy where
  /-- addresses computed from pc are taken modulo 256 -/
  | wrap
  /-- they are left as they are, and an access at 256 or above raises `F_ADDR_RANGE` -/
  | fault
  deriving DecidableEq, Repr

/-- `REG_INDEX_POLICY` (R9, R84, R115). -/
inductive RegIndexPolicy where
  /-- an operand byte of 8 to 255 raises `F_BAD_REGISTER` -/
  | fault
  /-- the index used is the low three bits of the byte -/
  | mask3
  deriving DecidableEq, Repr

/-- `SUB_DIV_DECODE` (R9, R92). -/
inductive SubDivDecode where
  /-- 0xA1 and 0xA3 are unknown opcodes -/
  | off
  /-- 0xA1 decodes as SUB and 0xA3 as DIV -/
  | ls8
  deriving DecidableEq, Repr

/-- `LD_SEMANTICS` (R9, R202, R203). -/
inductive LdSemantics where
  /-- LD loads a register from memory -/
  | load
  /-- the model gives LD no meaning -/
  | refuse
  deriving DecidableEq, Repr

/-- `EMPTY_POP_POLICY` (R9, R235). -/
inductive EmptyPopPolicy where
  /-- a pop reads whatever the cell holds -/
  | mechanical
  /-- POP or RET with SP at its reset value raises `F_STACK_UNDERFLOW` -/
  | faultAtBase
  deriving DecidableEq, Repr

/-- The named parameters the model takes as arguments (R9). -/
structure Config where
  unknownOpcode : UnknownOpcodePolicy
  pcOverflow    : PcOverflowPolicy
  regIndex      : RegIndexPolicy
  subDivDecode  : SubDivDecode
  ldSemantics   : LdSemantics
  emptyPop      : EmptyPopPolicy
  deriving DecidableEq, Repr

end Sys2Proof
end

