-- ==== Sys2Proof/Syntax.lean ====
section
/-! DEFINITION. The instructions: one constructor per row of spec/opcode_table.json (30_encoding.md R83, R87).
The operands are the operand bytes as they stand in memory: a register operand is a whole byte (R84), which only
the check of R115, at execution, turns into a register index. -/

namespace Sys2Proof

/-- `ra` is byte 1, `rb` byte 2 used as a register, `imm` byte 2 of LDI used as a value (R83, R86). -/
inductive Instr where
  | hlt
  | ret
  | push (ra : Byte)
  | pop (ra : Byte)
  | prn (ra : Byte)
  | pra (ra : Byte)
  | call (ra : Byte)
  | jmp (ra : Byte)
  | jeq (ra : Byte)
  | jne (ra : Byte)
  | inc (ra : Byte)
  | dec (ra : Byte)
  | not (ra : Byte)
  | ldi (ra imm : Byte)
  | ld (ra rb : Byte)
  | st (ra rb : Byte)
  | add (ra rb : Byte)
  | mul (ra rb : Byte)
  | mod (ra rb : Byte)
  | cmp (ra rb : Byte)
  | and (ra rb : Byte)
  | or (ra rb : Byte)
  | xor (ra rb : Byte)
  | shl (ra rb : Byte)
  | shr (ra rb : Byte)
  | sub (ra rb : Byte)
  | div (ra rb : Byte)
  deriving DecidableEq, Repr

end Sys2Proof
end

