-- ==== Sys2Proof/WellFormed.lean ====
section
/-! DEFINITION. Which instructions have legal operands (30_encoding.md R84, R91): every register operand byte is 0
to 7; every immediate byte is legal. -/

namespace Sys2Proof

/-- The byte names one of the eight registers by its own value (R84). -/
def isRegByte (b : Byte) : Bool := b.toNat < 8

/-- The operand bytes the instruction uses as registers, `ra` first (R83, R115). -/
def Instr.registerOperands : Instr → List Byte
  | .hlt | .ret => []
  | .push ra | .pop ra | .prn ra | .pra ra | .call ra | .jmp ra | .jeq ra | .jne ra
  | .inc ra | .dec ra | .not ra => [ra]
  | .ldi ra _ => [ra]
  | .ld ra rb | .st ra rb | .add ra rb | .mul ra rb | .mod ra rb | .cmp ra rb | .and ra rb
  | .or ra rb | .xor ra rb | .shl ra rb | .shr ra rb | .sub ra rb | .div ra rb => [ra, rb]

/-- No operand of the instruction is illegal (R91). -/
def Instr.wellFormed (i : Instr) : Bool := i.registerOperands.all isRegByte

end Sys2Proof
end

