-- ==== Sys2Proof/Decode.lean ====
section
/-! DEFINITION. The opcode map, the decoder, total on any bytes, and the encoder (30_encoding.md; 40_execution_cycle.md
R110, R113, R114). -/

namespace Sys2Proof

/-! ### Fields of the opcode byte (R80, R81) -/

/-- Bits 7:6: the number of operand bytes that follow the opcode. -/
def operandCount (opcode : Byte) : Nat := opcode.toNat / 64

/-- Bit 4: the instruction places pc itself. -/
def setsPc (opcode : Byte) : Bool := opcode.getLsbD 4

/-! ### The opcode map (R87) -/

/-- The formats of R83, each holding the constructor that takes its operand bytes. -/
inductive Format where
  | n (make : Instr)
  | r (make : Byte → Instr)
  | rr (make : Byte → Byte → Instr)
  | ri (make : Byte → Byte → Instr)

/-- One row of the map; `gated` marks the rows that exist only under `SUB_DIV_DECODE = ls8` (R87, R92). -/
structure Row where
  opcode : Byte
  format : Format
  gated  : Bool := false

/-- The map of R87, its rows in the order of the rule. -/
def opcodeTable : List Row :=
  [⟨0x01, .n .hlt, false⟩, ⟨0x11, .n .ret, false⟩,
   ⟨0x45, .r .push, false⟩, ⟨0x46, .r .pop, false⟩, ⟨0x47, .r .prn, false⟩, ⟨0x48, .r .pra, false⟩,
   ⟨0x50, .r .call, false⟩, ⟨0x54, .r .jmp, false⟩, ⟨0x55, .r .jeq, false⟩, ⟨0x56, .r .jne, false⟩,
   ⟨0x65, .r .inc, false⟩, ⟨0x66, .r .dec, false⟩, ⟨0x69, .r .not, false⟩] ++
  [⟨0x82, .ri .ldi, false⟩, ⟨0x83, .rr .ld, false⟩, ⟨0x84, .rr .st, false⟩,
   ⟨0xA0, .rr .add, false⟩, ⟨0xA2, .rr .mul, false⟩, ⟨0xA4, .rr .mod, false⟩, ⟨0xA7, .rr .cmp, false⟩,
   ⟨0xA8, .rr .and, false⟩, ⟨0xAA, .rr .or, false⟩, ⟨0xAB, .rr .xor, false⟩, ⟨0xAC, .rr .shl, false⟩,
   ⟨0xAD, .rr .shr, false⟩, ⟨0xA1, .rr .sub, true⟩, ⟨0xA3, .rr .div, true⟩]

/-- The row exists in this configuration (R92, R110). -/
def Row.enabled (d : SubDivDecode) (row : Row) : Bool := !row.gated || d == .ls8

/-- The entry of an opcode byte in the dispatch table; none for an unknown opcode (R110, R113). -/
def lookup (d : SubDivDecode) (opcode : Byte) : Option Row :=
  opcodeTable.find? fun row => row.enabled d && row.opcode == opcode

/-! ### The decoder -/

/-- Why bytes are no instruction. -/
inductive DecodeError where
  /-- there is no byte at all -/
  | noOpcode
  /-- the first byte has no entry in the dispatch table (R89) -/
  | unknownOpcode (opcode : Byte)
  /-- the bytes end before the operands of this decoded opcode do -/
  | missingOperand (opcode : Byte)
  deriving DecidableEq, Repr

/-- The instruction at the front of a list of bytes, opcode first (R53), and the bytes after it. -/
def decode (d : SubDivDecode) : List Byte → Except DecodeError (Instr × List Byte)
  | [] => .error .noOpcode
  | opcode :: rest =>
    match lookup d opcode with
    | none => .error (.unknownOpcode opcode)
    | some row =>
      match row.format, rest with
      | .n make, rest => .ok (make, rest)
      | .r make, ra :: rest => .ok (make ra, rest)
      | .rr make, ra :: rb :: rest => .ok (make ra rb, rest)
      | .ri make, ra :: imm :: rest => .ok (make ra imm, rest)
      | _, _ => .error (.missingOperand opcode)

/-! ### The encoder -/

/-- The opcode byte of an instruction, from the "Encoding" of its own rule (41_alu.md to 44_control.md). -/
def Instr.opcode : Instr → Byte
  | .hlt => 0b00000001
  | .ret => 0b00010001
  | .push _ => 0b01000101
  | .pop _ => 0b01000110
  | .prn _ => 0b01000111
  | .pra _ => 0b01001000
  | .call _ => 0b01010000
  | .jmp _ => 0b01010100
  | .jeq _ => 0b01010101
  | .jne _ => 0b01010110
  | .inc _ => 0b01100101
  | .dec _ => 0b01100110
  | .not _ => 0b01101001
  | .ldi _ _ => 0b10000010
  | .ld _ _ => 0b10000011
  | .st _ _ => 0b10000100
  | .add _ _ => 0b10100000
  | .mul _ _ => 0b10100010
  | .mod _ _ => 0b10100100
  | .cmp _ _ => 0b10100111
  | .and _ _ => 0b10101000
  | .or _ _ => 0b10101010
  | .xor _ _ => 0b10101011
  | .shl _ _ => 0b10101100
  | .shr _ _ => 0b10101101
  | .sub _ _ => 0b10100001
  | .div _ _ => 0b10100011

/-- The operand bytes in memory order (R83, R93). -/
def Instr.operandBytes : Instr → List Byte
  | .ldi ra imm => [ra, imm]
  | i => i.registerOperands

/-- The bytes of an instruction at increasing addresses (R53, R83). -/
def encode (i : Instr) : List Byte := i.opcode :: i.operandBytes

/-- The configuration decodes this instruction's opcode: all but SUB and DIV always, those two under `ls8` (R92). -/
def Instr.decodedUnder (d : SubDivDecode) : Instr → Bool
  | .sub _ _ | .div _ _ => d == .ls8
  | _ => true

/-! ### The host's numbering of a table row's bits -/

/-- The three bytes a table word of `nbits` bits lays out in memory: byte k is bits 8k+7..8k, zero above `nbits`.
Three bytes is the longest instruction (R80). -/
def tableBytes (nbits w : Nat) : List Byte :=
  let v := w % 2 ^ nbits
  [wrap8 v, wrap8 (v / 256), wrap8 (v / 65536)]

/-- The instruction the decoder reads from a table word. The table holds the two gated rows, so they are enabled
here (their "condition" in spec/opcode_table.json; notes/assumptions/6.md). -/
def decodeTableWord (nbits w : Nat) : Option Instr :=
  match decode .ls8 (tableBytes nbits w) with
  | .ok (i, _) => some i
  | .error _ => none

end Sys2Proof
end

