-- ==== Sys2Proof/Machine/Memory.lean ====
section
/-! DEFINITION. The memory array (20_memory.md R50, R55, R57): one address space of 256 byte cells, held as the
list of its cells that differ from the reset contents, in rising order of address (notes/assumptions/15.md). -/

namespace Sys2Proof.Machine

/-- The listed cells: (address, byte). -/
abbrev Memory := List Host.Cell

namespace Memory

/-- What a cell that nothing has written reads as: its reset value 0x00 (10_state.md R39). -/
def unlisted : Byte := 0x00

/-- The byte of cell `a` (R57). -/
def read : Memory → Nat → Byte
  | [], _ => unlisted
  | (b, v) :: rest, a => if a = b then v else read rest a

/-- The cells after writing `v` to cell `a`; writing what an unlisted cell reads as takes the entry out. -/
def write : Memory → Nat → Byte → Memory
  | [], a, v => if v = unlisted then [] else [(a, v)]
  | (b, w) :: rest, a, v =>
    if a < b then (if v = unlisted then (b, w) :: rest else (a, v) :: (b, w) :: rest)
    else if a = b then (if v = unlisted then rest else (a, v) :: rest)
    else (b, w) :: write rest a v

/-- Write bytes at consecutive addresses, the first at `a`. -/
def writeList : Memory → Nat → List Byte → Memory
  | m, _, [] => m
  | m, a, v :: vs => writeList (m.write a v) (a + 1) vs

/-- Every listed address is at least `lo` and below `MEM_SIZE`, addresses rise strictly, and no entry equals what an
unlisted cell reads as. -/
def wfFrom (lo : Nat) : Memory → Bool
  | [] => true
  | (a, v) :: rest => decide (lo ≤ a) && decide (a < memSize) && decide (v ≠ unlisted) && wfFrom (a + 1) rest

/-- The canonical form: equal memories are equal lists. -/
def wf (m : Memory) : Bool := wfFrom 0 m

end Memory

end Sys2Proof.Machine
end

