-- ==== Sys2Proof/Machine/Policy.lean ====
section
/-! DEFINITION. The configuration after reset (00_scope.md R9), and the address arithmetic that depends on it (R14). -/

namespace Sys2Proof.Machine

/-- The default value of each named parameter, as R9's table gives it (notes/assumptions/2.md). -/
def defaultConfig : Config where
  unknownOpcode := .skip1
  pcOverflow := .wrap
  regIndex := .fault
  subDivDecode := .off
  ldSemantics := .load
  emptyPop := .mechanical

/-- `addr(v)`: a computed address as a memory address (R14, R59). -/
def addr (c : Config) (v : Nat) : Nat :=
  match c.pcOverflow with
  | .wrap => v % 256
  | .fault => v

end Sys2Proof.Machine
end

