-- ==== Sys2Proof/Machine/State.lean ====
section
/-! DEFINITION. The architectural state (10_state.md R20 to R39), why a step can stop, and the state after reset. -/

namespace Sys2Proof.Machine

/-- The run state `status` (R33). -/
inductive RunState where
  /-- after reset, before Start -/
  | idle
  /-- steps are taken -/
  | running
  /-- after HLT or a fault; terminal -/
  | halted
  deriving DecidableEq, Repr

/-- The fault record `fault_code` (R34), by the names of 60_exceptions.md R281. These are the core's own faults:
a step that raises one answers a NEXT state (R283). -/
inductive FaultCode where
  /-- `F_NONE` -/
  | none
  /-- `F_DIV_ZERO`: MOD or DIV with a divisor register of 0 -/
  | divZero
  /-- `F_BAD_REGISTER`: a register operand byte of 8 to 255 -/
  | badRegister
  /-- `F_UNKNOWN_OPCODE`: the opcode has no dispatch entry, under the strict policy -/
  | unknownOpcode
  /-- `F_ADDR_RANGE`: an access, or CALL's return address, at 256 or above -/
  | addrRange
  /-- `F_STACK_UNDERFLOW`: POP or RET with SP at its reset value, under the fault_at_base policy -/
  | stackUnderflow
  deriving DecidableEq, Repr

/-- The 3-bit code of R281. -/
def FaultCode.code : FaultCode → BitVec 3
  | .none => 0
  | .divZero => 1
  | .badRegister => 2
  | .unknownOpcode => 3
  | .addrRange => 4
  | .stackUnderflow => 5

/-- What an output event asks the host to show (R45). -/
inductive OutKind where
  /-- `DEC`, by PRN: the decimal value -/
  | dec
  /-- `CHR`, by PRA: the character with this code point -/
  | chr
  deriving DecidableEq, Repr

/-- `Out(kind, b)` (R45). -/
structure OutEvent where
  kind : OutKind
  byte : Byte
  deriving DecidableEq, Repr

/-- `Report(ir, p)`: an unknown opcode byte and the address it was fetched from (R47). -/
structure Report where
  ir      : Byte
  address : Nat
  deriving DecidableEq, Repr

/-- The state of R20, and the configuration parameters of 00_scope.md R9, which no step changes
(notes/assumptions/1.md). -/
structure State where
  /-- the register file `x[0..7]`; `x[7]` is SP (R21, R23) -/
  x         : Vector Byte 8
  /-- the program counter; 8 bits under `wrap`, unbounded under `fault` (R27) -/
  pc        : Nat
  /-- the flags register FL (R29) -/
  fl        : Byte
  /-- the instruction register IR (R32) -/
  ir        : Byte
  /-- the memory array (R50) -/
  mem       : Memory
  /-- the run state (R33) -/
  status    : RunState
  /-- the fault record (R34) -/
  faultCode : FaultCode
  /-- the output stream, oldest event first (R35, R45) -/
  out       : List OutEvent
  /-- the report stream, oldest event first (R35, R47) -/
  rep       : List Report
  /-- the named parameters (00_scope.md R9) -/
  config    : Config
  deriving DecidableEq, Repr

/-- Why no next state exists (40_execution_cycle.md R111). The core's own faults are not here: they are next states
(`FaultCode`). -/
inductive Fault where
  /-- Raised by step in `Idle`: no step is taken until Start. Safe: the machine takes no step there either. -/
  | notStarted
  /-- Raised by step in `Halted`: no step is taken ever. Safe: the machine takes no step there either. -/
  | halted
  deriving DecidableEq, Repr

/-- Why the model gives an instruction no meaning. -/
inductive Refusal where
  /-- Raised by an arm of exec whose instruction is not modelled yet; no arm is. Safe. -/
  | notModelled (mnemonic : String)
  /-- Raised by LD under `LD_SEMANTICS = refuse`: `refuse(LD_SEMANTICS_NOT_IN_SOURCE)` (42_data_io.md R203). Safe:
  it makes claims about LD unprovable. -/
  | ldSemanticsNotInSource
  deriving DecidableEq, Repr

/-- What a step, or an instruction, answers. -/
abbrev Result := Host.Outcome State Fault Refusal

/-- The machine right after Reset (R39; 70_reset_and_hazards.md R320), in the default configuration. -/
def State.reset : State where
  x := #v[0, 0, 0, 0, 0, 0, 0, spReset]
  pc := pcReset
  fl := 0x00
  ir := 0x00
  mem := []
  status := .idle
  faultCode := .none
  out := []
  rep := []
  config := defaultConfig

end Sys2Proof.Machine
end

