-- ==== Sys2Proof/Machine/Ops.lean ====
section
/-! DEFINITION. The named operations over the state: registers, memory, pc, events, raising a fault, and the parts of
the cycle common to all instructions (00_scope.md R12, R13, R14; 40_execution_cycle.md; 60_exceptions.md R283). -/

namespace Sys2Proof.Machine

namespace State

/-! ### One field at a time -/

/-- `x[r]` (R12). -/
def readReg (s : State) (r : Reg) : Byte := s.x[r.val]

/-- `x[r] <- v` (R12). -/
def writeReg (s : State) (r : Reg) (v : Byte) : State := { s with x := s.x.set r.val v }

/-- SP, another name for `x[7]` (R23). -/
def sp (s : State) : Byte := s.readReg spIndex

/-- `pc <- target` (R12). -/
def setPc (s : State) (target : Nat) : State := { s with pc := target }

/-- `FL <- v`. -/
def setFl (s : State) (v : Byte) : State := { s with fl := v }

/-- `IR <- v`, done by the fetch only (R32). -/
def setIr (s : State) (v : Byte) : State := { s with ir := v }

/-- `MemRead(a, 1)` at an address from a register, which is always in range (R14, R59). -/
def readMem (s : State) (a : Byte) : Byte := s.mem.read a.toNat

/-- `MemWrite(a, 1, v)` at an address from a register. -/
def writeMem (s : State) (a v : Byte) : State := { s with mem := s.mem.write a.toNat v }

/-- `status <- Halted`, as HLT does it (R260). -/
def halt (s : State) : State := { s with status := .halted }

/-- `emit Out(kind, b)` (R13, R45). -/
def emitOut (s : State) (kind : OutKind) (b : Byte) : State := { s with out := s.out ++ [⟨kind, b⟩] }

/-- `emit Report(ir, p)` (R13, R47). -/
def emitReport (s : State) (ir : Byte) (p : Nat) : State := { s with rep := s.rep ++ [⟨ir, p⟩] }

/-- Fault entry, `raise Fault(code)`: the core halts and records the code, and nothing else changes, so pc stays at
the faulting instruction and IR keeps the byte this step fetched (60_exceptions.md R283). There is no return from a
fault (R286). -/
def raiseFault (s : State) (code : FaultCode) : State := { s with status := .halted, faultCode := code }

/-! ### The stack (43_stack.md R230, R231) -/

/-- A push of `v`: SP is decremented first, and the cell it then points to is written. -/
def pushByte (s : State) (v : Byte) : State :=
  let s := s.writeReg spIndex (wrap8Int ((s.sp.toNat : Int) - 1))
  s.writeMem s.sp v

/-- The byte a pop reads: the cell SP points to before its increment. -/
def popByte (s : State) : Byte := s.readMem s.sp

/-- SP moved up by a pop. -/
def bumpSp (s : State) : State := s.writeReg spIndex (wrap8 (s.sp.toNat + 1))

/-- POP and RET fault here: SP at its reset value under `EMPTY_POP_POLICY = fault_at_base` (R235). -/
def stackUnderflows (s : State) : Bool := s.config.emptyPop == .faultAtBase && s.sp == spReset

/-! ### The cycle's parts (40_execution_cycle.md) -/

/-- The automatic PC advance after a decoded instruction, by the latched IR: none when bit 4 is set, else past the
opcode and its operands (R117). -/
def autoAdvance (s : State) : State :=
  if setsPc s.ir then s else s.setPc (addr s.config (s.pc + 1 + operandCount s.ir))

/-- The unknown-opcode step: report the byte and where it was, then apply `UNKNOWN_OPCODE_POLICY` (R116). -/
def unknownOpcode (s : State) : State :=
  let r := s.emitReport s.ir s.pc
  match s.config.unknownOpcode with
  | .skip1 => r.setPc (addr s.config (s.pc + 1))
  | .generic => r.autoAdvance
  | .strict => r.raiseFault .unknownOpcode

end State

/-- The execute phase is done without a fault: the cycle's PC advance follows (R117, R119). -/
def complete (s : State) : Result := .next s.autoAdvance

/-- A fault ends the step, so nothing after it happens (R119, R283). -/
def failWith (code : FaultCode) (s : State) : Result := .next (s.raiseFault code)

end Sys2Proof.Machine
end

