-- ==== Sys2Proof/Machine/Operands.lean ====
section
/-! DEFINITION. The operand forms (30_encoding.md R84 to R86) and the register operand check, which comes before
every execute phase (40_execution_cycle.md R115). The immediate of LDI is the operand byte itself (R85). -/

namespace Sys2Proof.Machine

/-- The register an operand byte names, if any (R84, R115). -/
def regIndex (policy : RegIndexPolicy) (b : Byte) : Option Reg :=
  match policy with
  | .fault => if h : b.toNat < 8 then some ⟨b.toNat, h⟩ else none
  | .mask3 => some ⟨b.toNat % 8, Nat.mod_lt _ (by decide)⟩

/-- Check one register operand, then run the execute phase on its index (R115). -/
def withReg (ra : Byte) (s : State) (body : Reg → Result) : Result :=
  match regIndex s.config.regIndex ra with
  | none => failWith .badRegister s
  | some i => body i

/-- Check two register operands, `ra` first, then run the execute phase on their indices (R115). -/
def withRegs (ra rb : Byte) (s : State) (body : Reg → Reg → Result) : Result :=
  withReg ra s fun i => withReg rb s fun j => body i j

end Sys2Proof.Machine
end

