-- ==== Sys2Proof/Machine/Alu.lean ====
section
/-! DEFINITION. The ALU (41_alu.md). -/

namespace Sys2Proof.Machine

/-! ### The ALU functions (R141): exact arithmetic, then `wrap8` (R142, R160) -/

/-- R144 -/
def aluAdd (a b : Byte) : Byte := wrap8 (a.toNat + b.toNat)

/-- R145 -/
def aluSub (a b : Byte) : Byte := wrap8Int ((a.toNat : Int) - (b.toNat : Int))

/-- R146 -/
def aluMul (a b : Byte) : Byte := wrap8 (a.toNat * b.toNat)

/-- R148, for a divisor other than 0 -/
def aluDiv (a b : Byte) : Byte := wrap8 (a.toNat / b.toNat)

/-- R149, for a divisor other than 0 -/
def aluMod (a b : Byte) : Byte := wrap8 (a.toNat % b.toNat)

/-- R150 -/
def aluInc (a : Byte) : Byte := wrap8 (a.toNat + 1)

/-- R151 -/
def aluDec (a : Byte) : Byte := wrap8Int ((a.toNat : Int) - 1)

/-- R153 -/
def aluAnd (a b : Byte) : Byte := a &&& b

/-- R154 -/
def aluOr (a b : Byte) : Byte := a ||| b

/-- R155 -/
def aluXor (a b : Byte) : Byte := a ^^^ b

/-- R156: `255 - a` -/
def aluNot (a : Byte) : Byte := wrap8 (255 - a.toNat)

/-- R157: the amount is the whole value of `b` -/
def aluShl (a b : Byte) : Byte := wrap8 (a.toNat * 2 ^ b.toNat)

/-- R158: logical, the amount is the whole value of `b` -/
def aluShr (a b : Byte) : Byte := wrap8 (a.toNat / 2 ^ b.toNat)

/-! ### The shapes of an ALU instruction (R140, R159) -/

/-- A binary operation: both registers are read, then the first is written. -/
def aluBinary (f : Byte → Byte → Byte) (ra rb : Byte) (s : State) : Result :=
  withRegs ra rb s fun i j => complete (s.writeReg i (f (s.readReg i) (s.readReg j)))

/-- A unary operation reads and writes `ra` only. -/
def aluUnary (f : Byte → Byte) (ra : Byte) (s : State) : Result :=
  withReg ra s fun i => complete (s.writeReg i (f (s.readReg i)))

/-- Division and remainder fault before any write when the divisor register is 0 (R147). -/
def aluDivide (f : Byte → Byte → Byte) (ra rb : Byte) (s : State) : Result :=
  withRegs ra rb s fun i j =>
    if s.readReg j = 0 then failWith .divZero s
    else complete (s.writeReg i (f (s.readReg i) (s.readReg j)))

/-! ### The instructions -/

/-- ADD (R144). -/
def execAdd (ra rb : Byte) (s : State) : Result := aluBinary aluAdd ra rb s

/-- SUB (R145). -/
def execSub (ra rb : Byte) (s : State) : Result := aluBinary aluSub ra rb s

/-- MUL (R146). -/
def execMul (ra rb : Byte) (s : State) : Result := aluBinary aluMul ra rb s

/-- DIV (R147, R148). -/
def execDiv (ra rb : Byte) (s : State) : Result := aluDivide aluDiv ra rb s

/-- MOD (R147, R149). -/
def execMod (ra rb : Byte) (s : State) : Result := aluDivide aluMod ra rb s

/-- INC (R150). -/
def execInc (ra : Byte) (s : State) : Result := aluUnary aluInc ra s

/-- DEC (R151). -/
def execDec (ra : Byte) (s : State) : Result := aluUnary aluDec ra s

/-- CMP writes FL and no register (R152). -/
def execCmp (ra rb : Byte) (s : State) : Result :=
  withRegs ra rb s fun i j => complete (s.setFl (compareFlags (s.readReg i) (s.readReg j)))

/-- AND (R153). -/
def execAnd (ra rb : Byte) (s : State) : Result := aluBinary aluAnd ra rb s

/-- OR (R154). -/
def execOr (ra rb : Byte) (s : State) : Result := aluBinary aluOr ra rb s

/-- XOR (R155). -/
def execXor (ra rb : Byte) (s : State) : Result := aluBinary aluXor ra rb s

/-- NOT (R156). -/
def execNot (ra : Byte) (s : State) : Result := aluUnary aluNot ra s

/-- SHL (R157). -/
def execShl (ra rb : Byte) (s : State) : Result := aluBinary aluShl ra rb s

/-- SHR (R158). -/
def execShr (ra rb : Byte) (s : State) : Result := aluBinary aluShr ra rb s

end Sys2Proof.Machine
end

