-- ==== Sys2Proof/Machine/Control.lean ====
section
/-! DEFINITION. Control flow and halt (44_control.md). The five that place pc do so on every path (R118). -/

namespace Sys2Proof.Machine

/-- The address CALL returns to and a jump not taken goes on at: after the opcode and its one operand. -/
def afterOneOperand (s : State) : Nat := s.pc + 2

/-- CALL: the target is read before the push; a return address that does not fit a byte faults before any write
under `PC_OVERFLOW_POLICY = fault` (R250). -/
def execCall (ra : Byte) (s : State) : Result :=
  withReg ra s fun i =>
    if s.config.pcOverflow = .fault ∧ memSize ≤ afterOneOperand s then failWith .addrRange s
    else complete ((s.pushByte (wrap8 (afterOneOperand s))).setPc (s.readReg i).toNat)

/-- RET: the popped byte is the new pc (R251, R235). -/
def execRet (s : State) : Result :=
  if s.stackUnderflows then failWith .stackUnderflow s
  else complete (s.bumpSp.setPc s.popByte.toNat)

/-- JMP (R252). -/
def execJmp (ra : Byte) (s : State) : Result :=
  withReg ra s fun i => complete (s.setPc (s.readReg i).toNat)

/-- A jump on a condition: the register's value, or past the operand (R253, R254). -/
def jumpIf (taken : Bool) (ra : Byte) (s : State) : Result :=
  withReg ra s fun i =>
    complete (s.setPc (if taken then (s.readReg i).toNat else addr s.config (afterOneOperand s)))

/-- JEQ jumps when E is set (R253). -/
def execJeq (ra : Byte) (s : State) : Result := jumpIf (flagE s.fl) ra s

/-- JNE jumps when E is clear (R254). -/
def execJne (ra : Byte) (s : State) : Result := jumpIf (!flagE s.fl) ra s

/-- HLT: the run state becomes Halted, and the cycle still advances pc (R260, R120). -/
def execHlt (s : State) : Result := complete s.halt

end Sys2Proof.Machine
end

