-- ==== Sys2Proof/Machine/DataIo.lean ====
section
/-! DEFINITION. Data movement and output (42_data_io.md). -/

namespace Sys2Proof.Machine

/-- LDI: the immediate is stored unchanged (R201). -/
def execLdi (ra imm : Byte) (s : State) : Result :=
  withReg ra s fun i => complete (s.writeReg i imm)

/-- LD: a register is loaded from the cell another register points to (R202); under `LD_SEMANTICS = refuse` the
execute phase has no meaning (R203; notes/assumptions/7.md, 26.md). -/
def execLd (ra rb : Byte) (s : State) : Result :=
  withRegs ra rb s fun i j =>
    match s.config.ldSemantics with
    | .load => complete (s.writeReg i (s.readMem (s.readReg j)))
    | .refuse => .refused .ldSemanticsNotInSource

/-- ST copies a register and touches no memory, despite its name (R204, R96). -/
def execSt (ra rb : Byte) (s : State) : Result :=
  withRegs ra rb s fun i j => complete (s.writeReg i (s.readReg j))

/-- PRN: the register's value as a decimal number (R206). -/
def execPrn (ra : Byte) (s : State) : Result :=
  withReg ra s fun i => complete (s.emitOut .dec (s.readReg i))

/-- PRA: the character stored in memory at the register's value (R207). -/
def execPra (ra : Byte) (s : State) : Result :=
  withReg ra s fun i => complete (s.emitOut .chr (s.readMem (s.readReg i)))

end Sys2Proof.Machine
end

