-- ==== Sys2Proof/Machine/Stack.lean ====
section
/-! DEFINITION. The stack instructions (43_stack.md). -/

namespace Sys2Proof.Machine

/-- PUSH: the register is read before SP moves, so PUSH R7 stores the SP from before (R232). -/
def execPush (ra : Byte) (s : State) : Result :=
  withReg ra s fun i => complete (s.pushByte (s.readReg i))

/-- POP: the register write is the last one, so POP R7 ends with the popped byte in SP (R233, R234, R235). -/
def execPop (ra : Byte) (s : State) : Result :=
  withReg ra s fun i =>
    if s.stackUnderflows then failWith .stackUnderflow s
    else complete (s.bumpSp.writeReg i s.popByte)

end Sys2Proof.Machine
end

