-- ==== Sys2Proof/Machine/Fetch.lean ====
section
/-! DEFINITION. Fetch, decode and operand latching (40_execution_cycle.md R112 to R114, R116), and the placing of an
instruction's bytes where the fetch reads them. -/

namespace Sys2Proof.Machine

/-- `MemRead(a, 1)` at a computed address: none at 256 or above, where the access raises `F_ADDR_RANGE` (R14). -/
def readAt (s : State) (a : Nat) : Option Byte := if a < memSize then some (s.mem.read a) else none

/-- The bytes at the given addresses in order, up to the first address out of range. -/
def latch (s : State) : List Nat → List Byte
  | [] => []
  | a :: rest =>
    match readAt s a with
    | none => []
    | some b => b :: latch s rest

/-- Where `n` operand bytes lie: `addr(p + 1)`, then `addr(p + 2)` (R114). -/
def operandAddresses (s : State) (n : Nat) : List Nat :=
  (List.range n).map fun k => addr s.config (s.pc + 1 + k)

/-- The bytes this step reads before its execute phase: the opcode byte at pc and, for a decoded opcode only, its
operand bytes (R56, R112, R114). -/
def fetchBytes (s : State) : List Byte :=
  match readAt s s.pc with
  | none => []
  | some ir =>
    match lookup s.config.subDivDecode ir with
    | none => [ir]
    | some _ => ir :: latch s (operandAddresses s (operandCount ir))

/-- How the front of a step ends. -/
inductive Fetched where
  /-- a decoded instruction, with its operands latched, and the state its execute phase starts from -/
  | instr (i : Instr) (s : State)
  /-- the step is over: an unknown opcode, or a fault before the execute phase -/
  | ended (s : State)
  deriving DecidableEq, Repr

/-- The front of the step of R119: fetch into IR, decode, latch. A fault at the fetch leaves IR as it was (R283). -/
def fetch (s : State) : Fetched :=
  match decode s.config.subDivDecode (fetchBytes s) with
  | .ok (i, _) => .instr i (s.setIr i.opcode)
  | .error .noOpcode => .ended (s.raiseFault .addrRange)
  | .error (.unknownOpcode ir) => .ended (s.setIr ir).unknownOpcode
  | .error (.missingOperand ir) => .ended ((s.setIr ir).raiseFault .addrRange)

/-! ### Placing an instruction at pc -/

/-- Store bytes at pc and the addresses the operand latching reads after it. -/
def placeBytes (s : State) (bytes : List Byte) : State :=
  { s with
    mem := ((s.pc :: operandAddresses s 2).zip bytes).foldl
      (fun m cell => if cell.1 < memSize then m.write cell.1 cell.2 else m) s.mem }

/-- The configuration in which this opcode has an entry, if any has: `ls8` for the bytes that only the gated rows
decode, otherwise unchanged (30_encoding.md R92). -/
def enableOpcode (c : Config) (opcode : Byte) : Config :=
  if (lookup c.subDivDecode opcode).isNone && (lookup .ls8 opcode).isSome then { c with subDivDecode := .ls8 } else c

/-- The state whose next step fetches and runs the instruction with these bytes: the bytes at pc, a configuration
that decodes the opcode, and the core started (notes/assumptions/11.md). -/
def placeInstruction (s : State) (bytes : List Byte) : State :=
  { placeBytes s bytes with
    config := enableOpcode s.config (bytes.headD 0)
    status := .running }

end Sys2Proof.Machine
end

