-- ==== Sys2Proof/Machine/Step.lean ====
section
/-! DEFINITION. One step of the core (40_execution_cycle.md R111, R119), and the placing of an instruction for the
next step. -/

namespace Sys2Proof.Machine

/-- One step: none exists in Idle or Halted; in Running, the fetch and then the instruction's meaning. -/
def step (s : State) : Host.Outcome State Fault Refusal :=
  match s.status with
  | .idle => .fault .notStarted
  | .halted => .fault .halted
  | .running =>
    match fetch s with
    | .ended t => .next t
    | .instr i t => exec i t

/-- `s` with the instruction of a table word placed where the next step fetches it (notes/assumptions/11.md). -/
def State.withFetchWord (s : State) (nbits w : Nat) : State := placeInstruction s (tableBytes nbits w)

end Sys2Proof.Machine
end

