-- ==== Sys2Proof/Machine/HostPort.lean ====
section
/-! DEFINITION. The host's transactions with the core (10_state.md R40, R43 to R48; 70_reset_and_hazards.md R320 to
R322). They happen between steps (R49); no step of the core performs one. -/

namespace Sys2Proof.Machine

/-- What the host can do to the core (R43, R44). -/
inductive HostAction where
  | reset
  | load (image : List Byte)
  | start
  | abort
  deriving DecidableEq, Repr

/-- Why an action is turned away. -/
inductive HostRefusal where
  /-- Load or Start outside Idle (R43, R44) -/
  | notIdle
  /-- an image with no byte: "no usable input" (R44) -/
  | emptyImage
  /-- an image of more than 256 bytes (R44) -/
  | imageTooLong
  deriving DecidableEq, Repr

/-- What comes of an action. -/
inductive HostReply where
  /-- the action was done -/
  | done (s : State)
  /-- the action was turned away and nothing changed (60_exceptions.md R287) -/
  | refused (why : HostRefusal)
  /-- after Abort the model makes no claim about the core (R43) -/
  | noClaim
  deriving DecidableEq, Repr

/-- Reset: every piece of state to its value in R39; the parameters are the model's arguments and stay
(R320; notes/assumptions/2.md). -/
def hostReset (s : State) : State := { State.reset with config := s.config }

/-- Load: accepted only in Idle; the image is copied to address 0 and up, or nothing happens (R44, R287). -/
def hostLoad (image : List Byte) (s : State) : HostReply :=
  if s.status ≠ .idle then .refused .notIdle
  else if image = [] then .refused .emptyImage
  else if memSize < image.length then .refused .imageTooLong
  else .done { s with mem := s.mem.writeList loadBase image }

/-- Start: accepted only in Idle (R43, R321). -/
def hostStart (s : State) : HostReply :=
  if s.status ≠ .idle then .refused .notIdle else .done { s with status := .running }

/-- One action of the host (R43, R44). -/
def hostAct (a : HostAction) (s : State) : HostReply :=
  match a with
  | .reset => .done (hostReset s)
  | .load image => hostLoad image s
  | .start => hostStart s
  | .abort => .noClaim

/-- The boot order: Reset, Load, Start; a refused Load leaves the program unstarted (R322). -/
def boot (image : List Byte) (s : State) : HostReply :=
  match hostLoad image (hostReset s) with
  | .done t => hostStart t
  | r => r

/-- The status outputs, observable at all times (R46). -/
def observeStatus (s : State) : RunState × BitVec 3 := (s.status, s.faultCode.code)

/-- After Halted the host may read every piece of state (R48). -/
def observeFinal (s : State) : Option State := if s.status = .halted then some s else none

end Sys2Proof.Machine
end

