-- ==== Sys2Proof/Safety.lean ====
section
/-! DEFINITION. The terms in which claims about the machine are said: which register an operand byte names, frames
(what stays as it was), the invariant of a core, how a run has ended, and the code at pc. -/

namespace Sys2Proof

/-- The instructions that write the register their first operand names. -/
def Instr.writesFirstOperand : Instr → Bool
  | .hlt | .ret | .push _ | .prn _ | .pra _ | .call _ | .jmp _ | .jeq _ | .jne _ | .cmp _ _ => false
  | _ => true

/-- The instructions that use the stack, and so move SP (R230). -/
def Instr.usesStack : Instr → Bool
  | .push _ | .pop _ | .call _ | .ret => true
  | _ => false

end Sys2Proof

namespace Sys2Proof.Machine

/-! ### Operands -/

/-- The operand byte `b` names register `r`: by its own value under `REG_INDEX_POLICY = fault`, by its low three
bits under `mask3` (R84, R115). -/
abbrev NamesRegister (c : Config) (b : Byte) (r : Reg) : Prop :=
  (c.regIndex = .fault ∧ b.toNat = r.val) ∨ (c.regIndex = .mask3 ∧ b.toNat % 8 = r.val)

/-- The operand byte `b` names no register (R84). -/
abbrev NamesNoRegister (c : Config) (b : Byte) : Prop := c.regIndex = .fault ∧ 8 ≤ b.toNat

/-! ### Frames -/

/-- Every cell of memory reads as before. -/
abbrev SameMemory (s t : State) : Prop := ∀ a : Byte, t.readMem a = s.readMem a

/-- Every register reads as before. -/
abbrev SameRegisters (s t : State) : Prop := ∀ r : Reg, t.readReg r = s.readReg r

/-- IR, the run state, the fault record, the report stream and the configuration are as before. -/
structure SameControl (s t : State) : Prop where
  ir        : t.ir = s.ir
  status    : t.status = s.status
  faultCode : t.faultCode = s.faultCode
  rep       : t.rep = s.rep
  config    : t.config = s.config

/-- Nothing changed but register `d`, and pc. -/
structure OnlyRegister (d : Reg) (s t : State) : Prop where
  others  : ∀ r : Reg, r ≠ d → t.readReg r = s.readReg r
  fl      : t.fl = s.fl
  memory  : SameMemory s t
  out     : t.out = s.out
  control : SameControl s t

/-- Nothing changed but FL, and pc. -/
structure OnlyFlags (s t : State) : Prop where
  registers : SameRegisters s t
  memory    : SameMemory s t
  out       : t.out = s.out
  control   : SameControl s t

/-- Nothing changed but pc. -/
structure OnlyPc (s t : State) : Prop where
  registers : SameRegisters s t
  fl        : t.fl = s.fl
  memory    : SameMemory s t
  out       : t.out = s.out
  control   : SameControl s t

/-- Nothing changed but pc, and the output stream, which gained exactly this event. -/
structure OnlyOutput (e : OutEvent) (s t : State) : Prop where
  out       : t.out = s.out ++ [e]
  registers : SameRegisters s t
  fl        : t.fl = s.fl
  memory    : SameMemory s t
  control   : SameControl s t

/-- Nothing changed but pc, SP, and cell `a` of memory. -/
structure OnlySpAndCell (a : Byte) (s t : State) : Prop where
  others  : ∀ r : Reg, r ≠ spIndex → t.readReg r = s.readReg r
  cells   : ∀ b : Byte, b ≠ a → t.readMem b = s.readMem b
  fl      : t.fl = s.fl
  out     : t.out = s.out
  control : SameControl s t

/-- The state a fault with this code leaves: the core halted and the code recorded, all else as it was (R283). -/
def faulted (code : FaultCode) (s : State) : State := { s with status := .halted, faultCode := code }

/-! ### The core's invariant -/

/-- What holds of the core after reset and after every step. -/
structure Inv (s : State) : Prop where
  /-- the memory is in its canonical form -/
  memory : s.mem.wf = true
  /-- FL is 0, or exactly one of E, G, L is set; bits 7:3 are 0 (R29) -/
  flags : s.fl = 0 ∨ s.fl = 1 ∨ s.fl = 2 ∨ s.fl = 4
  /-- pc is 8 bits wide under `wrap` (R27) -/
  pcWraps : s.config.pcOverflow = .wrap → s.pc < 256
  /-- under `fault`, pc leaves the address range by at most the longest advance of an unknown opcode, 4 -/
  pcBound : s.pc < 260
  /-- a recorded fault means the core has halted (R34) -/
  faultHalts : s.faultCode ≠ .none → s.status = .halted
  /-- every report is of an opcode byte without an entry, at an address of the memory (R47, R116) -/
  reports : ∀ r ∈ s.rep, lookup s.config.subDivDecode r.ir = none ∧ r.address < 256

/-! ### How a run has ended (R121) -/

/-- Halted by HLT (R46, R121). -/
abbrev NormalHalt (s : State) : Prop := s.status = .halted ∧ s.faultCode = .none

/-- Halted by a fatal fault (R46, R121). -/
abbrev FaultHalt (s : State) : Prop := s.status = .halted ∧ s.faultCode ≠ .none

/-! ### The code at pc -/

/-- The bytes at pc, `addr(pc + 1)` and `addr(pc + 2)`, up to the first address out of range: the longest
instruction that can stand at pc (R14, R53, R80). -/
def codeAt (s : State) : List Byte :=
  ([s.pc, addr s.config (s.pc + 1), addr s.config (s.pc + 2)].takeWhile (· < 256)).map s.mem.read

/-- The bytes at pc decode to `i`. -/
abbrev InstrAt (s : State) (i : Instr) : Prop :=
  ∃ rest, decode s.config.subDivDecode (codeAt s) = .ok (i, rest)

end Sys2Proof.Machine
end

