-- ==== Sys2Proof/Certificates/Slice0/Obligations.lean ====
section
/-! DEFINITION. The statements for the provers. In those about one instruction, an operand byte names a register by
`NamesRegister` (R115), `faulted` is the state a fault leaves (R283), and `OnlyRegister` and its like say the frame.
How far pc advances is stated once, in `AdvancePassesTheInstruction`; the instructions that place pc say where. -/

open Sys2Proof Sys2Proof.Machine

/-! ### Encoding and decoding (30_encoding.md) -/

/-- Words written out bit by bit from the spec's encodings decode to the instruction they stand for. -/
def Obligations.WrittenWordsDecode : Prop :=
  decode .off [0b00000001] = .ok (.hlt, []) ∧
  decode .off [0b01000101, 0b00000111] = .ok (.push 7, []) ∧
  decode .off [0b01010101, 0b00000010] = .ok (.jeq 2, []) ∧
  decode .off [0b10000010, 0b00000000, 0b00001000] = .ok (.ldi 0 8, []) ∧
  decode .off [0b10100000, 0b00000011, 0b00000101] = .ok (.add 3 5, []) ∧
  decode .ls8 [0b10100001, 0b00000001, 0b00000010] = .ok (.sub 1 2, []) ∧
  decode .off [0b10100001, 0b00000001, 0b00000010] = .error (.unknownOpcode 0b10100001)

/-- Decoding the bytes of any instruction the configuration decodes gives it back, whatever its operand bytes and
whatever follows it. -/
def Obligations.DecodeOfEncodeIsIdentity : Prop :=
  ∀ (d : SubDivDecode) (i : Instr) (rest : List Byte), i.decodedUnder d = true →
    decode d (encode i ++ rest) = .ok (i, rest)

/-- Only the bytes of an instruction decode to it, and only in a configuration that decodes it: no other encoding
falls through to a neighbour. -/
def Obligations.DecodedBytesAreTheEncoding : Prop :=
  ∀ (d : SubDivDecode) (bytes rest : List Byte) (i : Instr), decode d bytes = .ok (i, rest) →
    bytes = encode i ++ rest ∧ i.decodedUnder d = true

/-- R80: an instruction is one opcode byte and 0, 1 or 2 operand bytes, as many as bits 7:6 of the opcode say. -/
def Obligations.LengthIsInTheOpcode : Prop :=
  ∀ (d : SubDivDecode) (opcode : Byte) (bytes rest : List Byte) (i : Instr),
    decode d (opcode :: bytes) = .ok (i, rest) →
      bytes.length = rest.length + (opcode.extractLsb' 6 2).toNat ∧ (opcode.extractLsb' 6 2).toNat ≤ 2

/-- A byte has no entry in the dispatch table exactly when it is the opcode of no instruction the configuration
decodes. -/
def Obligations.UnknownOpcodesAreTheRest : Prop :=
  ∀ (d : SubDivDecode) (b : Byte), lookup d b = none ↔ ∀ i : Instr, i.decodedUnder d = true → i.opcode ≠ b

/-! ### The cycle (40_execution_cycle.md) -/

/-- When the bytes at pc decode to an instruction, a step is that instruction's meaning on the state whose IR holds
its opcode. -/
def Obligations.StepRunsTheDecodedInstruction : Prop :=
  ∀ (s : State) (i : Instr) (rest : List Byte), s.status = .running →
    decode s.config.subDivDecode (codeAt s) = .ok (i, rest) →
      step s = exec i { s with ir := i.opcode }

/-- R111: no step exists in Idle or in Halted. That step then answers these named stops is the model's way to say so
(notes/assumptions/10.md). -/
def Obligations.NoStepUnlessRunning : Prop :=
  (∀ (s : State), s.status = .idle → step s = .fault .notStarted) ∧
  (∀ (s : State), s.status = .halted → step s = .fault .halted) ∧
  (∀ (s t : State), step s = .next t → s.status = .running)

/-- A running core always has a next state, unless LD is given no meaning, which is the spec's decision D6
(notes/assumptions/7.md). -/
def Obligations.RunningCoreAlwaysSteps : Prop :=
  ∀ (s : State), s.status = .running →
    (∃ t, step s = .next t) ∨
    (s.config.ldSemantics = .refuse ∧ (codeAt s).head? = some 0x83 ∧ step s = .refused .ldSemanticsNotInSource)

/-- An unknown opcode is reported with its address; then the policy says where pc goes, or that the step faults.
The policies are the spec's decision D4 (notes/assumptions/5.md). -/
def Obligations.UnknownOpcodeIsReported : Prop :=
  ∀ (s : State) (b : Byte), s.status = .running → s.pc < 256 → s.mem.read s.pc = b →
    lookup s.config.subDivDecode b = none →
      ∃ t, step s = .next t ∧ t.rep = s.rep ++ [⟨b, s.pc⟩] ∧ t.ir = b ∧
        SameRegisters s t ∧ t.fl = s.fl ∧ SameMemory s t ∧ t.out = s.out ∧ t.config = s.config ∧
        (s.config.unknownOpcode = .skip1 →
          t.pc = addr s.config (s.pc + 1) ∧ t.status = .running ∧ t.faultCode = s.faultCode) ∧
        (s.config.unknownOpcode = .generic →
          t.pc = (if b.getLsbD 4 then s.pc else addr s.config (s.pc + 1 + (b.extractLsb' 6 2).toNat)) ∧
          t.status = .running ∧ t.faultCode = s.faultCode) ∧
        (s.config.unknownOpcode = .strict →
          t.pc = s.pc ∧ t.status = .halted ∧ t.faultCode = .unknownOpcode)

/-- A fetch at 256 or above raises F_ADDR_RANGE and leaves even IR as it was. The effect of the fault is the spec's
decision D7 (notes/assumptions/9.md, 16.md). -/
def Obligations.FetchOutOfRangeFaults : Prop :=
  ∀ (s : State), s.status = .running → 256 ≤ s.pc → step s = .next (faulted .addrRange s)

/-- An operand byte at 256 or above raises F_ADDR_RANGE before the execute phase; IR holds the opcode. The policy and
the fault's effect are the spec's decisions D2 and D7 (notes/assumptions/3.md, 9.md). -/
def Obligations.OperandOutOfRangeFaults : Prop :=
  ∀ (s : State) (i : Instr), s.status = .running → s.config.pcOverflow = .fault → s.pc < 256 →
    s.mem.read s.pc = i.opcode → i.decodedUnder s.config.subDivDecode = true →
    256 < s.pc + (encode i).length →
      step s = .next (faulted .addrRange { s with ir := i.opcode })

/-- An operand byte that names no register raises F_BAD_REGISTER before anything else of the instruction, a division
by zero or a stack underflow included. The policy, the effect and the priority are the spec's decisions D3, D7 and D8
(notes/assumptions/4.md, 9.md). That LD faults so under `LD_SEMANTICS = refuse` too is the model's own reading
(notes/assumptions/26.md). -/
def Obligations.BadRegisterFaultsFirst : Prop :=
  ∀ (i : Instr) (s : State), (∃ b ∈ i.registerOperands, NamesNoRegister s.config b) →
    exec i s = .next (faulted .badRegister s)

/-- After an instruction whose opcode has bit 4 clear, pc is past the instruction's bytes, by `addr` of R14: modulo 256
under `wrap`, the sum itself under `fault`. Where it faulted, pc has not moved. The two cases are the spec's decision
D2, pc after a fault its decision D7 (notes/assumptions/3.md, 9.md). -/
def Obligations.AdvancePassesTheInstruction : Prop :=
  ∀ (i : Instr) (s t : State), s.ir = i.opcode → i.opcode.getLsbD 4 = false → s.faultCode = .none →
    exec i s = .next t →
      (t.faultCode = .none → t.pc = addr s.config (s.pc + (encode i).length) ∧
        (s.config.pcOverflow = .wrap → t.pc = (s.pc + (encode i).length) % 256) ∧
        (s.config.pcOverflow = .fault → t.pc = s.pc + (encode i).length)) ∧
      (t.faultCode ≠ .none → t.pc = s.pc)

/-- Only CALL, RET, JMP, JEQ and JNE have bit 4 of the opcode set. -/
def Obligations.OnlyFiveInstructionsPlacePc : Prop :=
  ∀ (i : Instr), i.opcode.getLsbD 4 = true ↔
    (i = .ret ∨ ∃ ra, i = .call ra ∨ i = .jmp ra ∨ i = .jeq ra ∨ i = .jne ra)

/-! ### Faults (60_exceptions.md) -/

/-- Faults are precise: a step that records a fault halts the core and has written no register, flag, memory cell or
output event, and pc is at the faulting instruction; only a report of the strict policy stays. The effect is the
spec's decision D7 (notes/assumptions/9.md). -/
def Obligations.FaultsArePrecise : Prop :=
  ∀ (s t : State), s.faultCode = .none → step s = .next t → t.faultCode ≠ .none →
    t.status = .halted ∧ t.pc = s.pc ∧ t.x = s.x ∧ t.fl = s.fl ∧ t.mem = s.mem ∧ t.out = s.out ∧
    (t.rep = s.rep ∨ (t.faultCode = .unknownOpcode ∧ t.rep = s.rep ++ [⟨t.ir, s.pc⟩])) ∧
    (t.ir = s.ir ∨ (codeAt s).head? = some t.ir)

/-- Each fault code has only the causes the table of codes gives it: the divisor register of a MOD or DIV is 0; a
register operand byte is 8 to 255; the byte has no entry; the fetch, an operand read or CALL's return address is at
256 or above; a POP or RET finds SP at 0xF4. Each but the first exists only under its policy. The table is the spec's
decision D8 (notes/assumptions/14.md); that a fetch at 256 or above faults in every configuration is the model's
reading (notes/assumptions/16.md). -/
def Obligations.FaultCodesHaveTheirCauses : Prop :=
  ∀ (s t : State), s.faultCode = .none → step s = .next t →
    (t.faultCode = .divZero →
      ∃ ra rb j, (InstrAt s (.mod ra rb) ∨ InstrAt s (.div ra rb) ∧ s.config.subDivDecode = .ls8) ∧
        NamesRegister s.config rb j ∧ s.readReg j = 0) ∧
    (t.faultCode = .badRegister →
      s.config.regIndex = .fault ∧ ∃ i, InstrAt s i ∧ ∃ b ∈ i.registerOperands, 8 ≤ b.toNat) ∧
    (t.faultCode = .unknownOpcode →
      s.config.unknownOpcode = .strict ∧ t.ir = s.mem.read s.pc ∧ lookup s.config.subDivDecode t.ir = none) ∧
    (t.faultCode = .addrRange →
      256 ≤ s.pc ∨ s.config.pcOverflow = .fault ∧
        ((∃ i : Instr, s.mem.read s.pc = i.opcode ∧ i.decodedUnder s.config.subDivDecode = true ∧
            256 < s.pc + (encode i).length) ∨
          ∃ ra, InstrAt s (.call ra) ∧ 256 ≤ s.pc + 2)) ∧
    (t.faultCode = .stackUnderflow →
      s.config.emptyPop = .faultAtBase ∧ s.sp = 0xF4 ∧ (InstrAt s .ret ∨ ∃ ra, InstrAt s (.pop ra)))

/-- A running core stops running only by HLT, with no fault recorded, or by a fault. -/
def Obligations.OnlyHltAndFaultsHalt : Prop :=
  ∀ (s t : State), s.faultCode = .none → step s = .next t → t.status ≠ .running →
    (NormalHalt t ∧ t.ir = 0x01) ∨ FaultHalt t

/-! ### What no step, or only one kind of instruction, does -/

/-- FL changes in a step only by CMP. -/
def Obligations.OnlyCmpWritesFlags : Prop :=
  ∀ (s t : State), step s = .next t → t.fl ≠ s.fl → t.ir = 0xA7

/-- Memory changes in a step only by PUSH and CALL, and only in the cell below SP. -/
def Obligations.OnlyPushAndCallWriteMemory : Prop :=
  ∀ (s t : State) (a : Byte), step s = .next t → t.readMem a ≠ s.readMem a →
    (t.ir = 0x45 ∨ t.ir = 0x50) ∧ a = s.sp - 1

/-- A register changes only as the destination named by the first operand, or as SP of a stack instruction (R26, with
R161, R200 and R230). -/
def Obligations.RegistersChangeOnlyAsNamed : Prop :=
  ∀ (i : Instr) (s t : State) (r : Reg), exec i s = .next t → t.readReg r ≠ s.readReg r →
    (i.writesFirstOperand = true ∧
      ∃ b, i.registerOperands.head? = some b ∧ NamesRegister s.config b r) ∨
    (i.usesStack = true ∧ r = 7)

/-- The streams only grow: a step appends at most one output event, of PRN or PRA, and at most one report, of an
unknown opcode. The streams are the spec's decisions D17 and D29 (notes/assumptions/22.md). -/
def Obligations.StreamsOnlyGrow : Prop :=
  ∀ (s t : State), step s = .next t →
    (t.out = s.out ∨ ∃ e, t.out = s.out ++ [e] ∧
      ((e.kind = .dec ∧ t.ir = 0x47) ∨ (e.kind = .chr ∧ t.ir = 0x48))) ∧
    (t.rep = s.rep ∨
      (t.rep = s.rep ++ [⟨t.ir, s.pc⟩] ∧ lookup s.config.subDivDecode t.ir = none))

/-- No step changes the named parameters. That State carries them is the model's choice (notes/assumptions/1.md). -/
def Obligations.StepKeepsConfiguration : Prop :=
  ∀ (s t : State), step s = .next t → t.config = s.config

/-- No instruction reads G or L (R31), nor the bits above them: two states that differ only in FL, and there not in E,
take the same step, but for FL itself. That a CMP writes all of FL, and that a CMP that faults leaves it, are the
spec's decisions D13 and D7 (notes/assumptions/20.md, 9.md). -/
def Obligations.FlagsGAndLHaveNoReader : Prop :=
  ∀ (s t : State) (v : Byte), s.faultCode = .none → v.getLsbD 0 = s.fl.getLsbD 0 → step s = .next t →
    step { s with fl := v } = .next { t with fl := if t.ir = 0xA7 ∧ t.faultCode = .none then t.fl else v }

/-- No step reads the output or the report stream: whatever stood in them before, the step is the same and appends
the same. The streams are the spec's decisions D17 and D29 (notes/assumptions/22.md). -/
def Obligations.StreamsAreNeverRead : Prop :=
  ∀ (s t : State) (o : List OutEvent) (r : List Report), step s = .next t →
    step { s with out := o ++ s.out, rep := r ++ s.rep } = .next { t with out := o ++ t.out, rep := r ++ t.rep }

/-! ### The invariant -/

/-- The state after reset meets the invariant. The canonical form in it is the model's choice
(notes/assumptions/15.md). -/
def Obligations.ResetMeetsTheInvariant : Prop := Inv State.reset

/-- Every step from a state that meets the invariant, reachable or not, gives a state that meets it. The canonical form
in it is the model's choice, the bounds of pc and FL's upper bits follow the spec's decisions D2 and D13
(notes/assumptions/3.md, 15.md, 16.md, 20.md). -/
def Obligations.StepKeepsTheInvariant : Prop :=
  ∀ (s t : State), Inv s → step s = .next t → Inv t

/-! ### Memory, reset and the host -/

/-- R57: a write changes only the addressed cell, and a read returns the cell's current value. The premise is the
invariant of the model's memory (notes/assumptions/15.md), which every write, step and action of the host keeps
(`WritesAndHostActionsKeepTheInvariant`, `StepKeepsTheInvariant`). -/
def Obligations.WriteChangesOnlyItsCell : Prop :=
  ∀ (s : State) (a b v : Byte), s.mem.wf = true →
    (s.writeMem a v).readMem b = (if b = a then v else s.readMem b) ∧
    SameRegisters s (s.writeMem a v) ∧ (s.writeMem a v).pc = s.pc ∧
    (s.writeMem a v).fl = s.fl ∧ (s.writeMem a v).out = s.out ∧ SameControl s (s.writeMem a v)

/-- Two memories in canonical form that read alike at all 256 addresses are equal. The canonical form is the model's
choice (notes/assumptions/15.md). -/
def Obligations.EqualReadsMakeEqualMemories : Prop :=
  ∀ (m m' : Memory), m.wf = true → m'.wf = true → (∀ a, a < 256 → m.read a = m'.read a) → m = m'

/-- The state after reset. IR, status, fault_code and the streams are the spec's decisions D15, D14, D8, D17 and D29,
the parameters its defaults (notes/assumptions/2.md, 13.md, 14.md, 22.md). -/
def Obligations.ResetLeavesTheResetValues : Prop :=
  (∀ r : Reg, State.reset.readReg r = if r = 7 then 0xF4 else 0) ∧ State.reset.pc = 0 ∧ State.reset.fl = 0 ∧
  (∀ a : Byte, State.reset.readMem a = 0) ∧ State.reset.ir = 0 ∧ State.reset.status = .idle ∧
  State.reset.faultCode.code = 0 ∧ State.reset.out = [] ∧ State.reset.rep = [] ∧
  State.reset.config = ⟨.skip1, .wrap, .fault, .off, .load, .mechanical⟩

/-- Reset, Load and Start of an image of 1 to 256 bytes give the running reset state with the image at address 0 and
every other cell 0, and it meets the invariant: runs begin there. Any other image leaves the program unstarted. The
length rule is the spec's decision D16, Start's its D14, IR at reset its D15; that Reset keeps the parameters, and the
canonical form in the invariant, are the model's (notes/assumptions/2.md, 13.md, 15.md, 23.md). -/
def Obligations.BootLoadsTheImage : Prop :=
  ∀ (s : State) (image : List Byte),
    (1 ≤ image.length ∧ image.length ≤ 256 →
      ∃ t, boot image s = .done t ∧ Inv t ∧ t.status = .running ∧ t.pc = 0 ∧ t.fl = 0 ∧ t.ir = 0 ∧
        t.faultCode = .none ∧ t.out = [] ∧ t.rep = [] ∧ t.config = s.config ∧
        (∀ r : Reg, t.readReg r = if r = 7 then 0xF4 else 0) ∧
        (∀ a : Byte, t.readMem a = image.getD a.toNat 0)) ∧
    (image = [] → boot image s = .refused .emptyImage) ∧
    (256 < image.length → boot image s = .refused .imageTooLong)

/-- Load and Start are turned away outside Idle; Reset is always accepted and leaves the reset state; after Abort
there is no claim. The run states are the spec's decision D14, Abort its D26 (notes/assumptions/13.md, 24.md). -/
def Obligations.HostActsOnlyAsAllowed : Prop :=
  ∀ (s : State) (image : List Byte),
    (s.status ≠ .idle → hostAct (.load image) s = .refused .notIdle ∧ hostAct .start s = .refused .notIdle) ∧
    (s.status = .idle → hostAct .start s = .done { s with status := .running }) ∧
    hostAct .reset s = .done { State.reset with config := s.config } ∧ hostAct .abort s = .noClaim

/-! ### The ALU (41_alu.md) -/

/-- R144. -/
def Obligations.AddWritesTheWrappedSum : Prop :=
  ∀ (ra rb : Byte), encode (.add ra rb) = [0b10100000, ra, rb] ∧
    ∀ (s : State) (i j : Reg), NamesRegister s.config ra i → NamesRegister s.config rb j →
      ∃ t, exec (.add ra rb) s = .next t ∧ OnlyRegister i s t ∧
        (t.readReg i).toNat = ((s.readReg i).toNat + (s.readReg j).toNat) % 256

/-- SUB; its opcode byte, which the clause of the encoding states, is general knowledge of the spec
(notes/assumptions/6.md). -/
def Obligations.SubWritesTheWrappedDifference : Prop :=
  ∀ (ra rb : Byte), encode (.sub ra rb) = [0b10100001, ra, rb] ∧
    ∀ (s : State) (i j : Reg), NamesRegister s.config ra i → NamesRegister s.config rb j →
      ∃ t, exec (.sub ra rb) s = .next t ∧ OnlyRegister i s t ∧
        ((t.readReg i).toNat : Int) = ((s.readReg i).toNat - (s.readReg j).toNat : Int) % 256

/-- R146. -/
def Obligations.MulWritesTheLowProduct : Prop :=
  ∀ (ra rb : Byte), encode (.mul ra rb) = [0b10100010, ra, rb] ∧
    ∀ (s : State) (i j : Reg), NamesRegister s.config ra i → NamesRegister s.config rb j →
      ∃ t, exec (.mul ra rb) s = .next t ∧ OnlyRegister i s t ∧
        (t.readReg i).toNat = ((s.readReg i).toNat * (s.readReg j).toNat) % 256

/-- DIV: the floor quotient, the spec's decision D12 (notes/assumptions/19.md); a zero divisor faults before any
write (the fault's effect is its D7, notes/assumptions/9.md). The opcode byte, which the clause of the encoding states,
is general knowledge of the spec (notes/assumptions/6.md). -/
def Obligations.DivWritesTheQuotientOrFaults : Prop :=
  ∀ (ra rb : Byte), encode (.div ra rb) = [0b10100011, ra, rb] ∧
    ∀ (s : State) (i j : Reg), NamesRegister s.config ra i → NamesRegister s.config rb j →
      (s.readReg j ≠ 0 →
        ∃ t, exec (.div ra rb) s = .next t ∧ OnlyRegister i s t ∧
          (t.readReg i).toNat = (s.readReg i).toNat / (s.readReg j).toNat) ∧
      (s.readReg j = 0 → exec (.div ra rb) s = .next (faulted .divZero s))

/-- R149: the remainder; a zero divisor raises F_DIV_ZERO and writes nothing. -/
def Obligations.ModWritesTheRemainderOrFaults : Prop :=
  ∀ (ra rb : Byte), encode (.mod ra rb) = [0b10100100, ra, rb] ∧
    ∀ (s : State) (i j : Reg), NamesRegister s.config ra i → NamesRegister s.config rb j →
      (s.readReg j ≠ 0 →
        ∃ t, exec (.mod ra rb) s = .next t ∧ OnlyRegister i s t ∧
          (t.readReg i).toNat = (s.readReg i).toNat % (s.readReg j).toNat) ∧
      (s.readReg j = 0 →
        ∃ t, exec (.mod ra rb) s = .next t ∧ t.status = .halted ∧ t.faultCode = .divZero ∧
          SameRegisters s t ∧ t.fl = s.fl ∧ SameMemory s t ∧ t.out = s.out ∧ t.rep = s.rep)

/-- R150 and R151. -/
def Obligations.IncAndDecWrap : Prop :=
  ∀ (ra : Byte), encode (.inc ra) = [0b01100101, ra] ∧ encode (.dec ra) = [0b01100110, ra] ∧
    ∀ (s : State) (i : Reg), NamesRegister s.config ra i →
      (∃ t, exec (.inc ra) s = .next t ∧ OnlyRegister i s t ∧
        (t.readReg i).toNat = ((s.readReg i).toNat + 1) % 256) ∧
      (∃ t, exec (.dec ra) s = .next t ∧ OnlyRegister i s t ∧
        (t.readReg i).toNat = ((s.readReg i).toNat + 255) % 256)

/-- CMP: exactly one of E, G, L is set, by unsigned comparison, and no register is written. That bits 7:3 are 0 is
the spec's decision D13 (notes/assumptions/20.md). -/
def Obligations.CmpSetsExactlyOneFlag : Prop :=
  ∀ (ra rb : Byte), encode (.cmp ra rb) = [0b10100111, ra, rb] ∧
    ∀ (s : State) (i j : Reg), NamesRegister s.config ra i → NamesRegister s.config rb j →
      ∃ t, exec (.cmp ra rb) s = .next t ∧ OnlyFlags s t ∧
        (t.fl.getLsbD 0 = true ↔ (s.readReg i).toNat = (s.readReg j).toNat) ∧
        (t.fl.getLsbD 1 = true ↔ (s.readReg i).toNat > (s.readReg j).toNat) ∧
        (t.fl.getLsbD 2 = true ↔ (s.readReg i).toNat < (s.readReg j).toNat) ∧
        (∀ k, 3 ≤ k → t.fl.getLsbD k = false)

/-- R153, R154 and R155, bit by bit. -/
def Obligations.BitwiseOperationsActOnEachBit : Prop :=
  ∀ (ra rb : Byte),
    encode (.and ra rb) = [0b10101000, ra, rb] ∧ encode (.or ra rb) = [0b10101010, ra, rb] ∧
    encode (.xor ra rb) = [0b10101011, ra, rb] ∧
    ∀ (s : State) (i j : Reg), NamesRegister s.config ra i → NamesRegister s.config rb j →
      (∃ t, exec (.and ra rb) s = .next t ∧ OnlyRegister i s t ∧
        ∀ k, (t.readReg i).getLsbD k = ((s.readReg i).getLsbD k && (s.readReg j).getLsbD k)) ∧
      (∃ t, exec (.or ra rb) s = .next t ∧ OnlyRegister i s t ∧
        ∀ k, (t.readReg i).getLsbD k = ((s.readReg i).getLsbD k || (s.readReg j).getLsbD k)) ∧
      (∃ t, exec (.xor ra rb) s = .next t ∧ OnlyRegister i s t ∧
        ∀ k, (t.readReg i).getLsbD k = ((s.readReg i).getLsbD k ^^ (s.readReg j).getLsbD k))

/-- R156: the complement within 8 bits. -/
def Obligations.NotWritesTheComplement : Prop :=
  ∀ (ra : Byte), encode (.not ra) = [0b01101001, ra] ∧
    ∀ (s : State) (i : Reg), NamesRegister s.config ra i →
      ∃ t, exec (.not ra) s = .next t ∧ OnlyRegister i s t ∧
        (t.readReg i).toNat = 255 - (s.readReg i).toNat ∧ t.readReg i = ~~~ s.readReg i

/-- SHL and SHR by the whole value of the second register, 0 for any amount of 8 or more: the spec's decision D11
(notes/assumptions/18.md). -/
def Obligations.ShiftsUseTheWholeAmount : Prop :=
  ∀ (ra rb : Byte), encode (.shl ra rb) = [0b10101100, ra, rb] ∧ encode (.shr ra rb) = [0b10101101, ra, rb] ∧
    ∀ (s : State) (i j : Reg), NamesRegister s.config ra i → NamesRegister s.config rb j →
      (∃ t, exec (.shl ra rb) s = .next t ∧ OnlyRegister i s t ∧
        t.readReg i = s.readReg i <<< (s.readReg j).toNat ∧ (8 ≤ (s.readReg j).toNat → t.readReg i = 0)) ∧
      (∃ t, exec (.shr ra rb) s = .next t ∧ OnlyRegister i s t ∧
        t.readReg i = s.readReg i >>> (s.readReg j).toNat ∧ (8 ≤ (s.readReg j).toNat → t.readReg i = 0))

/-! ### Data movement and output (42_data_io.md) -/

/-- R201: the immediate is stored unchanged, whatever it is. -/
def Obligations.LdiWritesTheImmediate : Prop :=
  ∀ (ra imm : Byte), encode (.ldi ra imm) = [0b10000010, ra, imm] ∧
    ∀ (s : State) (i : Reg), NamesRegister s.config ra i →
      ∃ t, exec (.ldi ra imm) s = .next t ∧ OnlyRegister i s t ∧ t.readReg i = imm

/-- LD loads from the cell the second register points to, or has no meaning: the spec's decision D6, on general
knowledge (notes/assumptions/7.md, 26.md). Its opcode byte stands in the source's table. -/
def Obligations.LdLoadsOrIsRefused : Prop :=
  ∀ (ra rb : Byte), encode (.ld ra rb) = [0b10000011, ra, rb] ∧
    ∀ (s : State) (i j : Reg), NamesRegister s.config ra i → NamesRegister s.config rb j →
      (s.config.ldSemantics = .load →
        ∃ t, exec (.ld ra rb) s = .next t ∧ OnlyRegister i s t ∧ t.readReg i = s.readMem (s.readReg j)) ∧
      (s.config.ldSemantics = .refuse → exec (.ld ra rb) s = .refused .ldSemanticsNotInSource)

/-- R204: a register copy that touches no memory. -/
def Obligations.StCopiesARegister : Prop :=
  ∀ (ra rb : Byte), encode (.st ra rb) = [0b10000100, ra, rb] ∧
    ∀ (s : State) (i j : Reg), NamesRegister s.config ra i → NamesRegister s.config rb j →
      ∃ t, exec (.st ra rb) s = .next t ∧ OnlyRegister i s t ∧ t.readReg i = s.readReg j

/-- R206. -/
def Obligations.PrnEmitsTheRegister : Prop :=
  ∀ (ra : Byte), encode (.prn ra) = [0b01000111, ra] ∧
    ∀ (s : State) (i : Reg), NamesRegister s.config ra i →
      ∃ t, exec (.prn ra) s = .next t ∧ OnlyOutput ⟨.dec, s.readReg i⟩ s t

/-- R207: the memory cell the register points to, not the register. -/
def Obligations.PraEmitsTheCellPointedTo : Prop :=
  ∀ (ra : Byte), encode (.pra ra) = [0b01001000, ra] ∧
    ∀ (s : State) (i : Reg), NamesRegister s.config ra i →
      ∃ t, exec (.pra ra) s = .next t ∧ OnlyOutput ⟨.chr, s.mem.read (s.readReg i).toNat⟩ s t

/-- A number loaded by LDI is the number PRN prints, for every register and every value. -/
def Obligations.LdiThenPrnPrintsTheValue : Prop :=
  ∀ (ra v : Byte) (s : State) (i : Reg), NamesRegister s.config ra i →
    ∃ t u, exec (.ldi ra v) s = .next t ∧ exec (.prn ra) t = .next u ∧ u.out = s.out ++ [⟨.dec, v⟩]

/-! ### The stack (43_stack.md) -/

/-- PUSH: SP goes down by one modulo 256 and the cell it then points to holds the register's value from before, also
for R7: the spec's decision D10 (notes/assumptions/17.md). The cell is the only one that changes. The premise is the
memory's canonical form, which every step keeps. -/
def Obligations.PushStoresBelowSp : Prop :=
  ∀ (ra : Byte), encode (.push ra) = [0b01000101, ra] ∧
    ∀ (s : State) (i : Reg), s.mem.wf = true → NamesRegister s.config ra i →
      ∃ t, exec (.push ra) s = .next t ∧ OnlySpAndCell (s.sp - 1) s t ∧
        t.sp.toNat = (s.sp.toNat + 255) % 256 ∧ t.readMem t.sp = s.readReg i

/-- POP: the register gets the cell SP points to and SP goes up by one modulo 256; for R7 the popped byte stays: the
spec's decision D10. With SP at 0xF4 the fault_at_base policy faults instead: its D25
(notes/assumptions/8.md, 17.md). No memory cell changes. -/
def Obligations.PopLoadsAndMovesSp : Prop :=
  ∀ (ra : Byte), encode (.pop ra) = [0b01000110, ra] ∧
    ∀ (s : State) (i : Reg), NamesRegister s.config ra i →
      (s.config.emptyPop = .mechanical ∨ s.sp ≠ 0xF4 →
        ∃ t, exec (.pop ra) s = .next t ∧ t.readReg i = s.readMem s.sp ∧
          (i ≠ 7 → t.sp.toNat = (s.sp.toNat + 1) % 256) ∧
          (∀ r : Reg, r ≠ i → r ≠ 7 → t.readReg r = s.readReg r) ∧
          t.fl = s.fl ∧ SameMemory s t ∧ t.out = s.out ∧ SameControl s t) ∧
      (s.config.emptyPop = .faultAtBase → s.sp = 0xF4 → exec (.pop ra) s = .next (faulted .stackUnderflow s))

/-- A PUSH and then a POP move the register's value and put SP back, from every SP and for R7 too, but that a POP
into R7 leaves the popped byte in SP. R7 is the spec's decision D10, the policy that faults at the stack's base its D25
(notes/assumptions/8.md, 17.md). -/
def Obligations.PushThenPopMovesTheValue : Prop :=
  ∀ (ra rb : Byte) (s : State) (i j : Reg), s.mem.wf = true →
    NamesRegister s.config ra i → NamesRegister s.config rb j →
    (s.config.emptyPop = .mechanical ∨ s.sp ≠ 0xF5) →
      ∃ t u, exec (.push ra) s = .next t ∧ exec (.pop rb) t = .next u ∧
        u.readReg j = s.readReg i ∧ (j ≠ 7 → u.sp = s.sp)

/-! ### Control flow (44_control.md) -/

/-- CALL: the address after its operand goes to the cell below SP, and pc to the register's value from before the
push, also for R7: the spec's decisions D2 and D10 (notes/assumptions/3.md, 17.md). Only that cell changes. -/
def Obligations.CallPushesTheReturnAddress : Prop :=
  ∀ (ra : Byte), encode (.call ra) = [0b01010000, ra] ∧
    ∀ (s : State) (i : Reg), s.mem.wf = true → s.ir = 0b01010000 → NamesRegister s.config ra i →
      (s.config.pcOverflow = .wrap ∨ s.pc + 2 < 256 →
        ∃ t, exec (.call ra) s = .next t ∧ OnlySpAndCell (s.sp - 1) s t ∧
          t.sp.toNat = (s.sp.toNat + 255) % 256 ∧ (t.readMem t.sp).toNat = (s.pc + 2) % 256 ∧
          t.pc = (s.readReg i).toNat) ∧
      (s.config.pcOverflow = .fault → 256 ≤ s.pc + 2 → exec (.call ra) s = .next (faulted .addrRange s))

/-- RET: pc gets the cell SP points to and SP goes up by one modulo 256, or the fault_at_base policy faults with SP at
0xF4: the spec's decision D25 (notes/assumptions/8.md). No memory cell changes. -/
def Obligations.RetPopsIntoPc : Prop :=
  encode .ret = [0b00010001] ∧
    ∀ (s : State), s.ir = 0b00010001 →
      (s.config.emptyPop = .mechanical ∨ s.sp ≠ 0xF4 →
        ∃ t, exec .ret s = .next t ∧ OnlyRegister 7 s t ∧
          t.sp.toNat = (s.sp.toNat + 1) % 256 ∧ t.pc = (s.readMem s.sp).toNat) ∧
      (s.config.emptyPop = .faultAtBase → s.sp = 0xF4 → exec .ret s = .next (faulted .stackUnderflow s))

/-- A RET that finds SP and the pushed cell as the CALL left them goes to the address after the CALL's operand and
puts SP back, whatever ran between. Wrapping, CALL through R7 and the policy that faults at the stack's base are the
spec's decisions D2, D10 and D25 (notes/assumptions/3.md, 8.md, 17.md). -/
def Obligations.CallThenRetReturns : Prop :=
  ∀ (ra : Byte) (s : State) (i : Reg), s.mem.wf = true → s.ir = 0b01010000 → NamesRegister s.config ra i →
    (s.config.pcOverflow = .wrap ∨ s.pc + 2 < 256) → (s.config.emptyPop = .mechanical ∨ s.sp ≠ 0xF5) →
      ∃ t, exec (.call ra) s = .next t ∧
        ∀ t' : State, t'.ir = 0b00010001 → t'.config = t.config → t'.sp = t.sp →
          t'.readMem t.sp = t.readMem t.sp →
            ∃ u, exec .ret t' = .next u ∧ u.pc = (s.pc + 2) % 256 ∧ u.sp = s.sp

/-- R252. -/
def Obligations.JmpGoesToTheRegister : Prop :=
  ∀ (ra : Byte), encode (.jmp ra) = [0b01010100, ra] ∧
    ∀ (s : State) (i : Reg), s.ir = 0b01010100 → NamesRegister s.config ra i →
      ∃ t, exec (.jmp ra) s = .next t ∧ OnlyPc s t ∧ t.pc = (s.readReg i).toNat

/-- R253 and R254: JEQ goes to the register's value when E is set, JNE when E is clear; otherwise pc goes past the
operand, by `addr` of R14. -/
def Obligations.ConditionalJumpsTestE : Prop :=
  ∀ (ra : Byte), encode (.jeq ra) = [0b01010101, ra] ∧ encode (.jne ra) = [0b01010110, ra] ∧
    ∀ (s : State) (i : Reg), NamesRegister s.config ra i →
      (s.ir = 0b01010101 →
        ∃ t, exec (.jeq ra) s = .next t ∧ OnlyPc s t ∧
          t.pc = if s.fl.getLsbD 0 then (s.readReg i).toNat else addr s.config (s.pc + 2)) ∧
      (s.ir = 0b01010110 →
        ∃ t, exec (.jne ra) s = .next t ∧ OnlyPc s t ∧
          t.pc = if s.fl.getLsbD 0 then addr s.config (s.pc + 2) else (s.readReg i).toNat)

/-- After a CMP, JEQ jumps exactly when the two registers were equal and JNE exactly when they were not, whatever
ran between that left FL as it was. -/
def Obligations.CmpDecidesTheJump : Prop :=
  ∀ (ra rb rc : Byte) (s : State) (i j k : Reg),
    NamesRegister s.config ra i → NamesRegister s.config rb j → NamesRegister s.config rc k →
      ∃ t, exec (.cmp ra rb) s = .next t ∧
        ∀ t' : State, t'.fl = t.fl → t'.config = t.config →
          (t'.ir = 0b01010101 → ∃ u, exec (.jeq rc) t' = .next u ∧
            u.pc = if s.readReg i = s.readReg j then (t'.readReg k).toNat else addr t'.config (t'.pc + 2)) ∧
          (t'.ir = 0b01010110 → ∃ u, exec (.jne rc) t' = .next u ∧
            u.pc = if s.readReg i ≠ s.readReg j then (t'.readReg k).toNat else addr t'.config (t'.pc + 2))

/-- R260: the run state becomes Halted, the fault record stays, and nothing else changes but pc, which the cycle
advances. -/
def Obligations.HltHalts : Prop :=
  encode .hlt = [0b00000001] ∧
    ∀ (s : State), s.ir = 0b00000001 →
      ∃ t, exec .hlt s = .next t ∧ t.status = .halted ∧ t.faultCode = s.faultCode ∧
        t.pc = addr s.config (s.pc + 1) ∧ SameRegisters s t ∧ t.fl = s.fl ∧ SameMemory s t ∧
        t.ir = s.ir ∧ t.out = s.out ∧ t.rep = s.rep ∧ t.config = s.config

/-! ### The numbers of the fault codes, and the invariant under the host's actions -/

/-- The 3-bit numbers of the fault codes, no two alike: the spec's decision D8 (notes/assumptions/14.md). -/
def Obligations.FaultCodesHaveTheirNumbers : Prop :=
  FaultCode.none.code = 0 ∧ FaultCode.divZero.code = 1 ∧ FaultCode.badRegister.code = 2 ∧
  FaultCode.unknownOpcode.code = 3 ∧ FaultCode.addrRange.code = 4 ∧ FaultCode.stackUnderflow.code = 5 ∧
  ∀ (c d : FaultCode), c.code = d.code → c = d

/-- A write keeps the memory's canonical form, and every action of the host that is done keeps the invariant. The
canonical form is the model's choice (notes/assumptions/15.md); what the actions do is the spec's decisions D14 and D16
and the model's reading (notes/assumptions/2.md, 13.md, 23.md). -/
def Obligations.WritesAndHostActionsKeepTheInvariant : Prop :=
  (∀ (s : State) (a v : Byte), s.mem.wf = true → (s.writeMem a v).mem.wf = true) ∧
  ∀ (act : HostAction) (s t : State), Inv s → hostAct act s = .done t → Inv t
end

