-- ==== Sys2Proof/Laws/Memory.lean ====
section
/-! SUPPORT. The laws of the memory array: a read after a write, the canonical form kept, and equal reads make equal
memories. -/

namespace Sys2Proof.Machine.Memory

/-! ### The canonical form -/

@[simp] theorem wfFrom_nil (lo : Nat) : wfFrom lo [] = true := rfl

theorem wfFrom_cons {lo a : Nat} {v : Byte} {rest : Memory} :
    wfFrom lo ((a, v) :: rest) = true ↔ lo ≤ a ∧ a < memSize ∧ v ≠ unlisted ∧ wfFrom (a + 1) rest = true := by
  simp [wfFrom, and_assoc]

theorem wfFrom_mono {lo lo' : Nat} {m : Memory} (h : lo' ≤ lo) (hm : wfFrom lo m = true) : wfFrom lo' m = true := by
  cases m with
  | nil => rfl
  | cons c rest =>
    obtain ⟨a, v⟩ := c
    rw [wfFrom_cons] at hm ⊢
    exact ⟨le_trans h hm.1, hm.2⟩

/-- A cell below the first one that can be listed reads as its reset contents. -/
theorem read_eq_unlisted {m : Memory} {lo a : Nat} (hm : wfFrom lo m = true) (ha : a < lo) : m.read a = unlisted := by
  induction m generalizing lo with
  | nil => rfl
  | cons c rest ih =>
    obtain ⟨b, v⟩ := c
    rw [wfFrom_cons] at hm
    rw [read, if_neg (by omega)]
    exact ih hm.2.2.2 (by omega)

/-- A cell outside the address range is never listed. -/
theorem read_out_of_range {m : Memory} {lo a : Nat} (hm : wfFrom lo m = true) (ha : memSize ≤ a) :
    m.read a = unlisted := by
  induction m generalizing lo with
  | nil => rfl
  | cons c rest ih =>
    obtain ⟨b, v⟩ := c
    rw [wfFrom_cons] at hm
    rw [read, if_neg (by omega)]
    exact ih hm.2.2.2

theorem wfFrom_write {m : Memory} {lo a : Nat} (v : Byte) (hm : wfFrom lo m = true) (hlo : lo ≤ a)
    (ha : a < memSize) : wfFrom lo (m.write a v) = true := by
  induction m generalizing lo with
  | nil => by_cases hv : v = unlisted <;> simp [write, hv, wfFrom_cons, hlo, ha]
  | cons c rest ih =>
    obtain ⟨b, w⟩ := c
    have hc := wfFrom_cons.1 hm
    by_cases hlt : a < b
    · by_cases hv : v = unlisted
      · simp [write, hlt, hv, hm]
      · simp only [write, hlt, hv, if_true, if_false]
        exact wfFrom_cons.2 ⟨hlo, ha, hv, wfFrom_cons.2 ⟨hlt, hc.2⟩⟩
    · by_cases heq : a = b
      · subst heq
        by_cases hv : v = unlisted
        · simp only [write, lt_irrefl, hv, if_true, if_false]
          exact wfFrom_mono (by omega) hc.2.2.2
        · simp only [write, lt_irrefl, hv, if_true, if_false]
          exact wfFrom_cons.2 ⟨hlo, ha, hv, hc.2.2.2⟩
      · simp only [write, hlt, heq, if_false]
        exact wfFrom_cons.2 ⟨hc.1, hc.2.1, hc.2.2.1, ih hc.2.2.2 (by omega)⟩

/-- A write in range keeps the canonical form. -/
theorem wf_write {m : Memory} {a : Nat} (v : Byte) (hm : m.wf = true) (ha : a < memSize) : (m.write a v).wf = true :=
  wfFrom_write v hm (Nat.zero_le a) ha

/-- A run of writes in range keeps the canonical form. -/
theorem wf_writeList {m : Memory} {a : Nat} (vs : List Byte) (hm : m.wf = true) (ha : a + vs.length ≤ memSize) :
    (m.writeList a vs).wf = true := by
  induction vs generalizing m a with
  | nil => exact hm
  | cons v vs ih =>
    simp only [List.length_cons] at ha
    exact ih (wf_write v hm (by omega)) (by omega)

/-! ### Reads after writes -/

theorem read_write_other (m : Memory) {a b : Nat} (v : Byte) (h : b ≠ a) : (m.write a v).read b = m.read b := by
  induction m with
  | nil => by_cases hv : v = unlisted <;> simp [write, read, hv, h]
  | cons c rest ih =>
    obtain ⟨d, w⟩ := c
    by_cases hlt : a < d
    · by_cases hv : v = unlisted <;> simp [write, read, hlt, hv, h]
    · by_cases heq : a = d
      · subst heq
        by_cases hv : v = unlisted <;> simp [write, read, hv, h]
      · simp [write, read, hlt, heq, ih]

theorem read_write_self_from {m : Memory} {lo a : Nat} (v : Byte) (hm : wfFrom lo m = true) :
    (m.write a v).read a = v := by
  induction m generalizing lo with
  | nil => by_cases hv : v = unlisted <;> simp [write, read, hv]
  | cons c rest ih =>
    obtain ⟨d, w⟩ := c
    have hc := wfFrom_cons.1 hm
    by_cases hlt : a < d
    · by_cases hv : v = unlisted
      · simp only [write, hlt, hv, if_true]
        exact read_eq_unlisted (lo := d) (wfFrom_cons.2 ⟨le_refl d, hc.2⟩) hlt
      · simp [write, read, hlt, hv]
    · by_cases heq : a = d
      · subst heq
        by_cases hv : v = unlisted
        · simp only [write, lt_irrefl, hv, if_true, if_false]
          exact read_eq_unlisted hc.2.2.2 (by omega)
        · simp [write, read, hv]
      · simp only [write, hlt, heq, read, if_false]
        exact ih hc.2.2.2

/-- The cell written reads as the byte written (20_memory.md R57). -/
theorem read_write_self {m : Memory} {a : Nat} (v : Byte) (hm : m.wf = true) : (m.write a v).read a = v :=
  read_write_self_from v hm

theorem read_write {m : Memory} (a b : Nat) (v : Byte) (hm : m.wf = true) :
    (m.write a v).read b = if b = a then v else m.read b := by
  by_cases h : b = a
  · subst h; simp [read_write_self v hm]
  · simp [h, read_write_other m v h]

/-- The cells after copying a list of bytes (10_state.md R44). -/
theorem read_writeList {m : Memory} (a b : Nat) (vs : List Byte) (hm : m.wf = true) (ha : a + vs.length ≤ memSize) :
    (m.writeList a vs).read b = if a ≤ b ∧ b < a + vs.length then vs.getD (b - a) 0 else m.read b := by
  induction vs generalizing m a with
  | nil => simp [writeList, show ¬(a ≤ b ∧ b < a) by omega]
  | cons v vs ih =>
    simp only [List.length_cons] at ha ⊢
    rw [writeList, ih (a + 1) (wf_write v hm (by omega)) (by omega), read_write a b v hm]
    by_cases hb : b = a
    · subst hb; simp
    · by_cases hin : a ≤ b ∧ b < a + (vs.length + 1)
      · obtain ⟨k, rfl⟩ : ∃ k, b = a + (k + 1) := ⟨b - a - 1, by omega⟩
        rw [if_pos (by omega), if_pos hin, show a + (k + 1) - (a + 1) = k by omega,
          show a + (k + 1) - a = k + 1 by omega, List.getD_cons_succ]
      · rw [if_neg (by omega), if_neg hb, if_neg hin]

/-! ### Equal reads -/

theorem ext_from {m m' : Memory} {lo : Nat} (hm : wfFrom lo m = true) (hm' : wfFrom lo m' = true)
    (h : ∀ a, lo ≤ a → m.read a = m'.read a) : m = m' := by
  induction m generalizing lo m' with
  | nil =>
    cases m' with
    | nil => rfl
    | cons c rest =>
      obtain ⟨a, v⟩ := c
      have hc := wfFrom_cons.1 hm'
      have := h a hc.1
      simp only [read, if_true] at this
      exact absurd this.symm hc.2.2.1
  | cons c rest ih =>
    obtain ⟨a, v⟩ := c
    have hc := wfFrom_cons.1 hm
    cases m' with
    | nil =>
      have := h a hc.1
      simp only [read, if_true] at this
      exact absurd this hc.2.2.1
    | cons c' rest' =>
      obtain ⟨a', v'⟩ := c'
      have hc' := wfFrom_cons.1 hm'
      have haa : a = a' := by
        rcases lt_trichotomy a a' with hlt | heq | hgt
        · have := h a hc.1
          rw [read_eq_unlisted (lo := a') (wfFrom_cons.2 ⟨le_refl _, hc'.2⟩) hlt] at this
          simp only [read, if_true] at this
          exact absurd this hc.2.2.1
        · exact heq
        · have := h a' hc'.1
          rw [read_eq_unlisted (lo := a) (wfFrom_cons.2 ⟨le_refl _, hc.2⟩) hgt] at this
          simp only [read, if_true] at this
          exact absurd this.symm hc'.2.2.1
      subst haa
      have hv : v = v' := by
        have := h a hc.1
        simpa [read] using this
      subst hv
      have : rest = rest' := ih hc.2.2.2 hc'.2.2.2 fun b hb => by
        have := h b (by omega)
        simpa [read, show b ≠ a by omega] using this
      rw [this]

end Sys2Proof.Machine.Memory
end

