-- ==== Sys2Proof/Laws/State.lean ====
section
/-! SUPPORT. One lemma per field per update of State, so that no proof unfolds a record update, and the reads of
registers and memory through the updates of other fields. -/

namespace Sys2Proof.Machine.State

/-! ### writeReg -/

@[simp] theorem writeReg_x (s : State) (r : Reg) (v : Byte) : (s.writeReg r v).x = s.x.set r.val v := rfl
@[simp] theorem writeReg_pc (s : State) (r : Reg) (v : Byte) : (s.writeReg r v).pc = s.pc := rfl
@[simp] theorem writeReg_fl (s : State) (r : Reg) (v : Byte) : (s.writeReg r v).fl = s.fl := rfl
@[simp] theorem writeReg_ir (s : State) (r : Reg) (v : Byte) : (s.writeReg r v).ir = s.ir := rfl
@[simp] theorem writeReg_mem (s : State) (r : Reg) (v : Byte) : (s.writeReg r v).mem = s.mem := rfl
@[simp] theorem writeReg_status (s : State) (r : Reg) (v : Byte) : (s.writeReg r v).status = s.status := rfl
@[simp] theorem writeReg_faultCode (s : State) (r : Reg) (v : Byte) : (s.writeReg r v).faultCode = s.faultCode := rfl
@[simp] theorem writeReg_out (s : State) (r : Reg) (v : Byte) : (s.writeReg r v).out = s.out := rfl
@[simp] theorem writeReg_rep (s : State) (r : Reg) (v : Byte) : (s.writeReg r v).rep = s.rep := rfl
@[simp] theorem writeReg_config (s : State) (r : Reg) (v : Byte) : (s.writeReg r v).config = s.config := rfl
@[simp] theorem readMem_writeReg (s : State) (r : Reg) (v : Byte) (c : Byte) : (s.writeReg r v).readMem c = s.readMem c := rfl

/-! ### setPc -/

@[simp] theorem setPc_x (s : State) (p : Nat) : (s.setPc p).x = s.x := rfl
@[simp] theorem setPc_pc (s : State) (p : Nat) : (s.setPc p).pc = p := rfl
@[simp] theorem setPc_fl (s : State) (p : Nat) : (s.setPc p).fl = s.fl := rfl
@[simp] theorem setPc_ir (s : State) (p : Nat) : (s.setPc p).ir = s.ir := rfl
@[simp] theorem setPc_mem (s : State) (p : Nat) : (s.setPc p).mem = s.mem := rfl
@[simp] theorem setPc_status (s : State) (p : Nat) : (s.setPc p).status = s.status := rfl
@[simp] theorem setPc_faultCode (s : State) (p : Nat) : (s.setPc p).faultCode = s.faultCode := rfl
@[simp] theorem setPc_out (s : State) (p : Nat) : (s.setPc p).out = s.out := rfl
@[simp] theorem setPc_rep (s : State) (p : Nat) : (s.setPc p).rep = s.rep := rfl
@[simp] theorem setPc_config (s : State) (p : Nat) : (s.setPc p).config = s.config := rfl
@[simp] theorem readReg_setPc (s : State) (p : Nat) (q : Reg) : (s.setPc p).readReg q = s.readReg q := rfl
@[simp] theorem sp_setPc (s : State) (p : Nat) : (s.setPc p).sp = s.sp := rfl
@[simp] theorem readMem_setPc (s : State) (p : Nat) (c : Byte) : (s.setPc p).readMem c = s.readMem c := rfl

/-! ### setFl -/

@[simp] theorem setFl_x (s : State) (v : Byte) : (s.setFl v).x = s.x := rfl
@[simp] theorem setFl_pc (s : State) (v : Byte) : (s.setFl v).pc = s.pc := rfl
@[simp] theorem setFl_fl (s : State) (v : Byte) : (s.setFl v).fl = v := rfl
@[simp] theorem setFl_ir (s : State) (v : Byte) : (s.setFl v).ir = s.ir := rfl
@[simp] theorem setFl_mem (s : State) (v : Byte) : (s.setFl v).mem = s.mem := rfl
@[simp] theorem setFl_status (s : State) (v : Byte) : (s.setFl v).status = s.status := rfl
@[simp] theorem setFl_faultCode (s : State) (v : Byte) : (s.setFl v).faultCode = s.faultCode := rfl
@[simp] theorem setFl_out (s : State) (v : Byte) : (s.setFl v).out = s.out := rfl
@[simp] theorem setFl_rep (s : State) (v : Byte) : (s.setFl v).rep = s.rep := rfl
@[simp] theorem setFl_config (s : State) (v : Byte) : (s.setFl v).config = s.config := rfl
@[simp] theorem readReg_setFl (s : State) (v : Byte) (q : Reg) : (s.setFl v).readReg q = s.readReg q := rfl
@[simp] theorem sp_setFl (s : State) (v : Byte) : (s.setFl v).sp = s.sp := rfl
@[simp] theorem readMem_setFl (s : State) (v : Byte) (c : Byte) : (s.setFl v).readMem c = s.readMem c := rfl

/-! ### setIr -/

@[simp] theorem setIr_x (s : State) (v : Byte) : (s.setIr v).x = s.x := rfl
@[simp] theorem setIr_pc (s : State) (v : Byte) : (s.setIr v).pc = s.pc := rfl
@[simp] theorem setIr_fl (s : State) (v : Byte) : (s.setIr v).fl = s.fl := rfl
@[simp] theorem setIr_ir (s : State) (v : Byte) : (s.setIr v).ir = v := rfl
@[simp] theorem setIr_mem (s : State) (v : Byte) : (s.setIr v).mem = s.mem := rfl
@[simp] theorem setIr_status (s : State) (v : Byte) : (s.setIr v).status = s.status := rfl
@[simp] theorem setIr_faultCode (s : State) (v : Byte) : (s.setIr v).faultCode = s.faultCode := rfl
@[simp] theorem setIr_out (s : State) (v : Byte) : (s.setIr v).out = s.out := rfl
@[simp] theorem setIr_rep (s : State) (v : Byte) : (s.setIr v).rep = s.rep := rfl
@[simp] theorem setIr_config (s : State) (v : Byte) : (s.setIr v).config = s.config := rfl
@[simp] theorem readReg_setIr (s : State) (v : Byte) (q : Reg) : (s.setIr v).readReg q = s.readReg q := rfl
@[simp] theorem sp_setIr (s : State) (v : Byte) : (s.setIr v).sp = s.sp := rfl
@[simp] theorem readMem_setIr (s : State) (v : Byte) (c : Byte) : (s.setIr v).readMem c = s.readMem c := rfl

/-! ### writeMem -/

@[simp] theorem writeMem_x (s : State) (a v : Byte) : (s.writeMem a v).x = s.x := rfl
@[simp] theorem writeMem_pc (s : State) (a v : Byte) : (s.writeMem a v).pc = s.pc := rfl
@[simp] theorem writeMem_fl (s : State) (a v : Byte) : (s.writeMem a v).fl = s.fl := rfl
@[simp] theorem writeMem_ir (s : State) (a v : Byte) : (s.writeMem a v).ir = s.ir := rfl
@[simp] theorem writeMem_mem (s : State) (a v : Byte) : (s.writeMem a v).mem = s.mem.write a.toNat v := rfl
@[simp] theorem writeMem_status (s : State) (a v : Byte) : (s.writeMem a v).status = s.status := rfl
@[simp] theorem writeMem_faultCode (s : State) (a v : Byte) : (s.writeMem a v).faultCode = s.faultCode := rfl
@[simp] theorem writeMem_out (s : State) (a v : Byte) : (s.writeMem a v).out = s.out := rfl
@[simp] theorem writeMem_rep (s : State) (a v : Byte) : (s.writeMem a v).rep = s.rep := rfl
@[simp] theorem writeMem_config (s : State) (a v : Byte) : (s.writeMem a v).config = s.config := rfl
@[simp] theorem readReg_writeMem (s : State) (a v : Byte) (q : Reg) : (s.writeMem a v).readReg q = s.readReg q := rfl
@[simp] theorem sp_writeMem (s : State) (a v : Byte) : (s.writeMem a v).sp = s.sp := rfl

/-! ### halt -/

@[simp] theorem halt_x (s : State) : (s.halt).x = s.x := rfl
@[simp] theorem halt_pc (s : State) : (s.halt).pc = s.pc := rfl
@[simp] theorem halt_fl (s : State) : (s.halt).fl = s.fl := rfl
@[simp] theorem halt_ir (s : State) : (s.halt).ir = s.ir := rfl
@[simp] theorem halt_mem (s : State) : (s.halt).mem = s.mem := rfl
@[simp] theorem halt_status (s : State) : (s.halt).status = .halted := rfl
@[simp] theorem halt_faultCode (s : State) : (s.halt).faultCode = s.faultCode := rfl
@[simp] theorem halt_out (s : State) : (s.halt).out = s.out := rfl
@[simp] theorem halt_rep (s : State) : (s.halt).rep = s.rep := rfl
@[simp] theorem halt_config (s : State) : (s.halt).config = s.config := rfl
@[simp] theorem readReg_halt (s : State) (q : Reg) : (s.halt).readReg q = s.readReg q := rfl
@[simp] theorem sp_halt (s : State) : (s.halt).sp = s.sp := rfl
@[simp] theorem readMem_halt (s : State) (c : Byte) : (s.halt).readMem c = s.readMem c := rfl

/-! ### emitOut -/

@[simp] theorem emitOut_x (s : State) (k : OutKind) (b : Byte) : (s.emitOut k b).x = s.x := rfl
@[simp] theorem emitOut_pc (s : State) (k : OutKind) (b : Byte) : (s.emitOut k b).pc = s.pc := rfl
@[simp] theorem emitOut_fl (s : State) (k : OutKind) (b : Byte) : (s.emitOut k b).fl = s.fl := rfl
@[simp] theorem emitOut_ir (s : State) (k : OutKind) (b : Byte) : (s.emitOut k b).ir = s.ir := rfl
@[simp] theorem emitOut_mem (s : State) (k : OutKind) (b : Byte) : (s.emitOut k b).mem = s.mem := rfl
@[simp] theorem emitOut_status (s : State) (k : OutKind) (b : Byte) : (s.emitOut k b).status = s.status := rfl
@[simp] theorem emitOut_faultCode (s : State) (k : OutKind) (b : Byte) : (s.emitOut k b).faultCode = s.faultCode := rfl
@[simp] theorem emitOut_out (s : State) (k : OutKind) (b : Byte) : (s.emitOut k b).out = s.out ++ [⟨k, b⟩] := rfl
@[simp] theorem emitOut_rep (s : State) (k : OutKind) (b : Byte) : (s.emitOut k b).rep = s.rep := rfl
@[simp] theorem emitOut_config (s : State) (k : OutKind) (b : Byte) : (s.emitOut k b).config = s.config := rfl
@[simp] theorem readReg_emitOut (s : State) (k : OutKind) (b : Byte) (q : Reg) : (s.emitOut k b).readReg q = s.readReg q := rfl
@[simp] theorem sp_emitOut (s : State) (k : OutKind) (b : Byte) : (s.emitOut k b).sp = s.sp := rfl
@[simp] theorem readMem_emitOut (s : State) (k : OutKind) (b : Byte) (c : Byte) : (s.emitOut k b).readMem c = s.readMem c := rfl

/-! ### emitReport -/

@[simp] theorem emitReport_x (s : State) (v : Byte) (p : Nat) : (s.emitReport v p).x = s.x := rfl
@[simp] theorem emitReport_pc (s : State) (v : Byte) (p : Nat) : (s.emitReport v p).pc = s.pc := rfl
@[simp] theorem emitReport_fl (s : State) (v : Byte) (p : Nat) : (s.emitReport v p).fl = s.fl := rfl
@[simp] theorem emitReport_ir (s : State) (v : Byte) (p : Nat) : (s.emitReport v p).ir = s.ir := rfl
@[simp] theorem emitReport_mem (s : State) (v : Byte) (p : Nat) : (s.emitReport v p).mem = s.mem := rfl
@[simp] theorem emitReport_status (s : State) (v : Byte) (p : Nat) : (s.emitReport v p).status = s.status := rfl
@[simp] theorem emitReport_faultCode (s : State) (v : Byte) (p : Nat) : (s.emitReport v p).faultCode = s.faultCode := rfl
@[simp] theorem emitReport_out (s : State) (v : Byte) (p : Nat) : (s.emitReport v p).out = s.out := rfl
@[simp] theorem emitReport_rep (s : State) (v : Byte) (p : Nat) : (s.emitReport v p).rep = s.rep ++ [⟨v, p⟩] := rfl
@[simp] theorem emitReport_config (s : State) (v : Byte) (p : Nat) : (s.emitReport v p).config = s.config := rfl
@[simp] theorem readReg_emitReport (s : State) (v : Byte) (p : Nat) (q : Reg) : (s.emitReport v p).readReg q = s.readReg q := rfl
@[simp] theorem sp_emitReport (s : State) (v : Byte) (p : Nat) : (s.emitReport v p).sp = s.sp := rfl
@[simp] theorem readMem_emitReport (s : State) (v : Byte) (p : Nat) (c : Byte) : (s.emitReport v p).readMem c = s.readMem c := rfl

/-! ### raiseFault -/

@[simp] theorem raiseFault_x (s : State) (c : FaultCode) : (s.raiseFault c).x = s.x := rfl
@[simp] theorem raiseFault_pc (s : State) (c : FaultCode) : (s.raiseFault c).pc = s.pc := rfl
@[simp] theorem raiseFault_fl (s : State) (c : FaultCode) : (s.raiseFault c).fl = s.fl := rfl
@[simp] theorem raiseFault_ir (s : State) (c : FaultCode) : (s.raiseFault c).ir = s.ir := rfl
@[simp] theorem raiseFault_mem (s : State) (c : FaultCode) : (s.raiseFault c).mem = s.mem := rfl
@[simp] theorem raiseFault_status (s : State) (c : FaultCode) : (s.raiseFault c).status = .halted := rfl
@[simp] theorem raiseFault_faultCode (s : State) (c : FaultCode) : (s.raiseFault c).faultCode = c := rfl
@[simp] theorem raiseFault_out (s : State) (c : FaultCode) : (s.raiseFault c).out = s.out := rfl
@[simp] theorem raiseFault_rep (s : State) (c : FaultCode) : (s.raiseFault c).rep = s.rep := rfl
@[simp] theorem raiseFault_config (s : State) (c : FaultCode) : (s.raiseFault c).config = s.config := rfl
@[simp] theorem readReg_raiseFault (s : State) (c : FaultCode) (q : Reg) : (s.raiseFault c).readReg q = s.readReg q := rfl
@[simp] theorem sp_raiseFault (s : State) (c : FaultCode) : (s.raiseFault c).sp = s.sp := rfl
@[simp] theorem readMem_raiseFault (s : State) (c : FaultCode) (d : Byte) : (s.raiseFault c).readMem d = s.readMem d := rfl

end Sys2Proof.Machine.State
end

