-- ==== Sys2Proof/Laws/Registers.lean ====
section
/-! SUPPORT. Reads of registers and of memory after writes to them, and the stack operations. -/

namespace Sys2Proof.Machine.State

theorem readReg_writeReg (s : State) (r q : Reg) (v : Byte) :
    (s.writeReg r v).readReg q = if q = r then v else s.readReg q := by
  simp only [readReg, writeReg, Vector.getElem_set, Fin.ext_iff, eq_comm]

@[simp] theorem readReg_writeReg_self (s : State) (r : Reg) (v : Byte) : (s.writeReg r v).readReg r = v := by
  simp [readReg_writeReg]

theorem readReg_writeReg_of_ne (s : State) {r q : Reg} (v : Byte) (h : q ≠ r) :
    (s.writeReg r v).readReg q = s.readReg q := by
  simp [readReg_writeReg, h]

/-- Two register files that read alike are equal. -/
theorem x_ext {s t : State} (h : ∀ r : Reg, t.readReg r = s.readReg r) : t.x = s.x := by
  apply Vector.ext
  intro k hk
  exact h ⟨k, hk⟩

theorem readMem_writeMem_of_ne (s : State) {a b : Byte} (v : Byte) (h : b ≠ a) :
    (s.writeMem a v).readMem b = s.readMem b :=
  Memory.read_write_other _ _ fun hb => h (BitVec.eq_of_toNat_eq hb)

theorem readMem_writeMem_self (s : State) (a v : Byte) (hm : s.mem.wf = true) : (s.writeMem a v).readMem a = v :=
  Memory.read_write_self v hm

/-! ### The stack operations (43_stack.md R230, R231) -/

theorem wrap8Int_pred (b : Byte) : wrap8Int ((b.toNat : Int) - 1) = b - 1 := by
  revert b; decide

theorem wrap8_succ (b : Byte) : wrap8 (b.toNat + 1) = b + 1 := by
  revert b; decide

/-- A push: SP is one lower, the cell it then points to is written, and nothing else changes. -/
theorem pushByte_eq (s : State) (v : Byte) :
    s.pushByte v = (s.writeReg spIndex (s.sp - 1)).writeMem (s.sp - 1) v := by
  simp only [pushByte, wrap8Int_pred]
  rw [show (s.writeReg spIndex (s.sp - 1)).sp = s.sp - 1 from readReg_writeReg_self ..]

/-- SP one higher, and nothing else changed. -/
theorem bumpSp_eq (s : State) : s.bumpSp = s.writeReg spIndex (s.sp + 1) := by
  simp only [bumpSp, wrap8_succ]

@[simp] theorem sp_pushByte (s : State) (v : Byte) : (s.pushByte v).sp = s.sp - 1 := by
  rw [pushByte_eq, sp_writeMem]; exact readReg_writeReg_self ..

@[simp] theorem sp_bumpSp (s : State) : s.bumpSp.sp = s.sp + 1 := by
  rw [bumpSp_eq]; exact readReg_writeReg_self ..

theorem readReg_pushByte (s : State) (v : Byte) {r : Reg} (h : r ≠ spIndex) :
    (s.pushByte v).readReg r = s.readReg r := by
  simp [pushByte_eq, readReg_writeReg_of_ne _ _ h]

theorem readMem_pushByte_self (s : State) (v : Byte) (hm : s.mem.wf = true) :
    (s.pushByte v).readMem (s.sp - 1) = v := by
  rw [pushByte_eq]; exact readMem_writeMem_self _ _ _ (by simpa using hm)

theorem readMem_pushByte_of_ne (s : State) (v : Byte) {a : Byte} (h : a ≠ s.sp - 1) :
    (s.pushByte v).readMem a = s.readMem a := by
  rw [pushByte_eq, readMem_writeMem_of_ne _ _ h, readMem_writeReg]

@[simp] theorem pushByte_pc (s : State) (v : Byte) : (s.pushByte v).pc = s.pc := rfl
@[simp] theorem pushByte_fl (s : State) (v : Byte) : (s.pushByte v).fl = s.fl := rfl
@[simp] theorem pushByte_ir (s : State) (v : Byte) : (s.pushByte v).ir = s.ir := rfl
@[simp] theorem pushByte_status (s : State) (v : Byte) : (s.pushByte v).status = s.status := rfl
@[simp] theorem pushByte_faultCode (s : State) (v : Byte) : (s.pushByte v).faultCode = s.faultCode := rfl
@[simp] theorem pushByte_out (s : State) (v : Byte) : (s.pushByte v).out = s.out := rfl
@[simp] theorem pushByte_rep (s : State) (v : Byte) : (s.pushByte v).rep = s.rep := rfl
@[simp] theorem pushByte_config (s : State) (v : Byte) : (s.pushByte v).config = s.config := rfl
@[simp] theorem bumpSp_pc (s : State) : s.bumpSp.pc = s.pc := rfl
@[simp] theorem bumpSp_fl (s : State) : s.bumpSp.fl = s.fl := rfl
@[simp] theorem bumpSp_ir (s : State) : s.bumpSp.ir = s.ir := rfl
@[simp] theorem bumpSp_mem (s : State) : s.bumpSp.mem = s.mem := rfl
@[simp] theorem bumpSp_status (s : State) : s.bumpSp.status = s.status := rfl
@[simp] theorem bumpSp_faultCode (s : State) : s.bumpSp.faultCode = s.faultCode := rfl
@[simp] theorem bumpSp_out (s : State) : s.bumpSp.out = s.out := rfl
@[simp] theorem bumpSp_rep (s : State) : s.bumpSp.rep = s.rep := rfl
@[simp] theorem bumpSp_config (s : State) : s.bumpSp.config = s.config := rfl

end Sys2Proof.Machine.State
end

