-- ==== Sys2Proof/Laws/Cycle.lean ====
section
/-! SUPPORT. What the parts of the cycle do: the address arithmetic, the PC advance, the unknown-opcode step, and the
register operand check. -/

namespace Sys2Proof.Machine

/-! ### Addresses (00_scope.md R14) -/

theorem addr_wrap {c : Config} (h : c.pcOverflow = .wrap) (v : Nat) : addr c v = v % 256 := by simp [addr, h]

theorem addr_fault {c : Config} (h : c.pcOverflow = .fault) (v : Nat) : addr c v = v := by simp [addr, h]

theorem addr_of_lt (c : Config) {v : Nat} (h : v < 256) : addr c v = v := by
  unfold addr; split
  · omega
  · rfl

theorem addr_le (c : Config) (v : Nat) : addr c v ≤ v := by
  unfold addr; split
  · exact Nat.mod_le _ _
  · exact le_refl _

/-! ### The PC advance (R117) -/

namespace State

/-- The advance changes pc alone. -/
theorem autoAdvance_eq (s : State) :
    s.autoAdvance = s.setPc (if setsPc s.ir then s.pc else addr s.config (s.pc + 1 + operandCount s.ir)) := by
  unfold autoAdvance; split <;> rfl

theorem autoAdvance_of_setsPc {s : State} (h : setsPc s.ir = true) : s.autoAdvance = s := by
  simp [autoAdvance, h]

@[simp] theorem autoAdvance_x (s : State) : s.autoAdvance.x = s.x := by rw [autoAdvance_eq]; rfl
@[simp] theorem autoAdvance_fl (s : State) : s.autoAdvance.fl = s.fl := by rw [autoAdvance_eq]; rfl
@[simp] theorem autoAdvance_ir (s : State) : s.autoAdvance.ir = s.ir := by rw [autoAdvance_eq]; rfl
@[simp] theorem autoAdvance_mem (s : State) : s.autoAdvance.mem = s.mem := by rw [autoAdvance_eq]; rfl
@[simp] theorem autoAdvance_status (s : State) : s.autoAdvance.status = s.status := by rw [autoAdvance_eq]; rfl
@[simp] theorem autoAdvance_faultCode (s : State) : s.autoAdvance.faultCode = s.faultCode := by
  rw [autoAdvance_eq]; rfl
@[simp] theorem autoAdvance_out (s : State) : s.autoAdvance.out = s.out := by rw [autoAdvance_eq]; rfl
@[simp] theorem autoAdvance_rep (s : State) : s.autoAdvance.rep = s.rep := by rw [autoAdvance_eq]; rfl
@[simp] theorem autoAdvance_config (s : State) : s.autoAdvance.config = s.config := by rw [autoAdvance_eq]; rfl
@[simp] theorem readReg_autoAdvance (s : State) (r : Reg) : s.autoAdvance.readReg r = s.readReg r := by
  rw [autoAdvance_eq]; rfl
@[simp] theorem sp_autoAdvance (s : State) : s.autoAdvance.sp = s.sp := by rw [autoAdvance_eq]; rfl
@[simp] theorem readMem_autoAdvance (s : State) (a : Byte) : s.autoAdvance.readMem a = s.readMem a := by
  rw [autoAdvance_eq]; rfl

/-! ### The unknown-opcode step (R116) -/

@[simp] theorem unknownOpcode_x (s : State) : s.unknownOpcode.x = s.x := by
  unfold unknownOpcode; split <;> simp
@[simp] theorem unknownOpcode_fl (s : State) : s.unknownOpcode.fl = s.fl := by
  unfold unknownOpcode; split <;> simp
@[simp] theorem unknownOpcode_ir (s : State) : s.unknownOpcode.ir = s.ir := by
  unfold unknownOpcode; split <;> simp
@[simp] theorem unknownOpcode_mem (s : State) : s.unknownOpcode.mem = s.mem := by
  unfold unknownOpcode; split <;> simp
@[simp] theorem unknownOpcode_out (s : State) : s.unknownOpcode.out = s.out := by
  unfold unknownOpcode; split <;> simp
@[simp] theorem unknownOpcode_config (s : State) : s.unknownOpcode.config = s.config := by
  unfold unknownOpcode; split <;> simp
@[simp] theorem unknownOpcode_rep (s : State) : s.unknownOpcode.rep = s.rep ++ [⟨s.ir, s.pc⟩] := by
  unfold unknownOpcode; split <;> simp

end State

/-! ### The register operand check (R115) -/

theorem regIndex_eq_some {p : RegIndexPolicy} {b : Byte} {r : Reg} :
    regIndex p b = some r ↔ (p = .fault ∧ b.toNat = r.val) ∨ (p = .mask3 ∧ b.toNat % 8 = r.val) := by
  cases p with
  | fault =>
    by_cases h : b.toNat < 8
    · simp [regIndex, h, Fin.ext_iff]
    · simp only [regIndex, h, dite_false]
      have := r.isLt
      constructor
      · intro hc; cases hc
      · rintro (⟨_, hb⟩ | ⟨hc, _⟩)
        · omega
        · cases hc
  | mask3 => simp [regIndex, Fin.ext_iff]

theorem regIndex_eq_none {p : RegIndexPolicy} {b : Byte} : regIndex p b = none ↔ p = .fault ∧ 8 ≤ b.toNat := by
  cases p with
  | fault => by_cases h : b.toNat < 8 <;> simp [regIndex, h]; omega
  | mask3 => simp [regIndex]

/-- All that a checked register operand can do: fault, or run the execute phase on the register it names. -/
theorem withReg_cases (ra : Byte) (s : State) (body : Reg → Result) :
    (regIndex s.config.regIndex ra = none ∧ withReg ra s body = failWith .badRegister s) ∨
    (∃ i, regIndex s.config.regIndex ra = some i ∧ withReg ra s body = body i) := by
  unfold withReg
  cases h : regIndex s.config.regIndex ra with
  | none => exact .inl ⟨rfl, rfl⟩
  | some i => exact .inr ⟨i, rfl, rfl⟩

theorem withReg_of_some {ra : Byte} {s : State} {i : Reg} (body : Reg → Result)
    (h : regIndex s.config.regIndex ra = some i) : withReg ra s body = body i := by
  simp [withReg, h]

theorem withReg_of_none {ra : Byte} {s : State} (body : Reg → Result)
    (h : regIndex s.config.regIndex ra = none) : withReg ra s body = failWith .badRegister s := by
  simp [withReg, h]

theorem withRegs_of_some {ra rb : Byte} {s : State} {i j : Reg} (body : Reg → Reg → Result)
    (hi : regIndex s.config.regIndex ra = some i) (hj : regIndex s.config.regIndex rb = some j) :
    withRegs ra rb s body = body i j := by
  simp [withRegs, withReg, hi, hj]

/-- All that two checked register operands can do. -/
theorem withRegs_cases (ra rb : Byte) (s : State) (body : Reg → Reg → Result) :
    (s.config.regIndex = .fault ∧ withRegs ra rb s body = failWith .badRegister s) ∨
    (∃ i j, regIndex s.config.regIndex ra = some i ∧ regIndex s.config.regIndex rb = some j ∧
      withRegs ra rb s body = body i j) := by
  unfold withRegs
  rcases withReg_cases ra s fun i => withReg rb s fun j => body i j with ⟨h, he⟩ | ⟨i, hi, he⟩
  · exact .inl ⟨(regIndex_eq_none.1 h).1, he⟩
  · rcases withReg_cases rb s fun j => body i j with ⟨h, he'⟩ | ⟨j, hj, he'⟩
    · exact .inl ⟨(regIndex_eq_none.1 h).1, he.trans he'⟩
    · exact .inr ⟨i, j, hi, hj, he.trans he'⟩

end Sys2Proof.Machine
end

