-- ==== Sys2Proof/Laws/Decode.lean ====
section
/-! SUPPORT. What a lookup in the dispatch table and a decoding say about the opcode byte. -/

namespace Sys2Proof

/-- A row of the map builds only instructions with the row's opcode, takes as many operand bytes as bits 7:6 of it
say, and is gated exactly as they are (30_encoding.md R80, R87, R92). -/
def Row.Agrees (row : Row) : Prop :=
  match row.format with
  | .n make => operandCount row.opcode = 0 ∧ make.opcode = row.opcode ∧ make.operandBytes = [] ∧
      ∀ d, make.decodedUnder d = row.enabled d
  | .r make => operandCount row.opcode = 1 ∧ ∀ ra, (make ra).opcode = row.opcode ∧
      (make ra).operandBytes = [ra] ∧ ∀ d, (make ra).decodedUnder d = row.enabled d
  | .rr make => operandCount row.opcode = 2 ∧ ∀ ra rb, (make ra rb).opcode = row.opcode ∧
      (make ra rb).operandBytes = [ra, rb] ∧ ∀ d, (make ra rb).decodedUnder d = row.enabled d
  | .ri make => operandCount row.opcode = 2 ∧ ∀ ra imm, (make ra imm).opcode = row.opcode ∧
      (make ra imm).operandBytes = [ra, imm] ∧ ∀ d, (make ra imm).decodedUnder d = row.enabled d

theorem opcodeTable_agrees : ∀ row ∈ opcodeTable, row.Agrees := by
  intro row h
  simp only [opcodeTable, List.cons_append, List.nil_append, List.mem_cons, List.not_mem_nil, or_false] at h
  rcases h with rfl | rfl | rfl | rfl | rfl | rfl | rfl | rfl | rfl | rfl | rfl | rfl | rfl | rfl | rfl | rfl | rfl |
    rfl | rfl | rfl | rfl | rfl | rfl | rfl | rfl | rfl | rfl <;>
  simp [Row.Agrees, Row.enabled, operandCount, Instr.opcode, Instr.operandBytes, Instr.registerOperands,
    Instr.decodedUnder]

/-- All that a hit in the dispatch table says. -/
theorem lookup_some {d : SubDivDecode} {b : Byte} {row : Row} (h : lookup d b = some row) :
    row ∈ opcodeTable ∧ row.enabled d = true ∧ row.opcode = b := by
  have hp := List.find?_some h
  simp only [Bool.and_eq_true, beq_iff_eq] at hp
  exact ⟨List.mem_of_find?_eq_some h, hp.1, hp.2⟩

/-- The opcode of an instruction the configuration decodes has an entry. -/
theorem lookup_opcode {d : SubDivDecode} {i : Instr} (h : i.decodedUnder d = true) :
    ∃ row, lookup d i.opcode = some row ∧ row.Agrees := by
  have hit : (lookup d i.opcode).isSome = true := by
    cases d <;> cases i <;> first | rfl | cases h
  obtain ⟨row, hr⟩ := Option.isSome_iff_exists.1 hit
  exact ⟨row, hr, opcodeTable_agrees row (lookup_some hr).1⟩

/-- The error of an empty list of bytes. -/
@[simp] theorem decode_nil (d : SubDivDecode) : decode d [] = .error .noOpcode := rfl

/-- A byte without an entry is rejected as unknown, whatever follows it (R89, R90). -/
theorem decode_unknown {d : SubDivDecode} {b : Byte} (bytes : List Byte) (h : lookup d b = none) :
    decode d (b :: bytes) = .error (.unknownOpcode b) := by
  simp [decode, h]

/-- A decoded opcode takes its operand bytes from the front of the rest, or they are missing: all that decoding can
do with a byte that has an entry. -/
theorem decode_known {d : SubDivDecode} {b : Byte} {row : Row} (bytes : List Byte) (h : lookup d b = some row) :
    (∃ i, decode d (b :: bytes) = .ok (i, bytes.drop (operandCount b)) ∧ i.opcode = b ∧
      i.operandBytes = bytes.take (operandCount b) ∧ i.operandBytes.length = operandCount b ∧
      i.decodedUnder d = true) ∨
    (bytes.length < operandCount b ∧ decode d (b :: bytes) = .error (.missingOperand b)) := by
  obtain ⟨hmem, hen, rfl⟩ := lookup_some h
  have ha := opcodeTable_agrees row hmem
  unfold Row.Agrees at ha
  cases hf : row.format with
  | n make =>
    rw [hf] at ha
    obtain ⟨hn, ho, hb, hd⟩ := ha
    exact .inl ⟨make, by simp [decode, h, hf, hn], ho, by simp [hn, hb], by simp [hn, hb], by rw [hd, hen]⟩
  | r make =>
    rw [hf] at ha
    obtain ⟨hn, ha⟩ := ha
    match bytes with
    | [] => exact .inr ⟨by simp [hn], by simp [decode, h, hf]⟩
    | ra :: rest =>
      obtain ⟨ho, hb, hd⟩ := ha ra
      exact .inl ⟨make ra, by simp [decode, h, hf, hn], ho, by simp [hn, hb], by simp [hn, hb], by rw [hd, hen]⟩
  | rr make =>
    rw [hf] at ha
    obtain ⟨hn, ha⟩ := ha
    match bytes with
    | [] => exact .inr ⟨by simp [hn], by simp [decode, h, hf]⟩
    | [ra] => exact .inr ⟨by simp [hn], by simp [decode, h, hf]⟩
    | ra :: rb :: rest =>
      obtain ⟨ho, hb, hd⟩ := ha ra rb
      exact .inl ⟨make ra rb, by simp [decode, h, hf, hn], ho, by simp [hn, hb], by simp [hn, hb], by rw [hd, hen]⟩
  | ri make =>
    rw [hf] at ha
    obtain ⟨hn, ha⟩ := ha
    match bytes with
    | [] => exact .inr ⟨by simp [hn], by simp [decode, h, hf]⟩
    | [ra] => exact .inr ⟨by simp [hn], by simp [decode, h, hf]⟩
    | ra :: imm :: rest =>
      obtain ⟨ho, hb, hd⟩ := ha ra imm
      exact .inl ⟨make ra imm, by simp [decode, h, hf, hn], ho, by simp [hn, hb], by simp [hn, hb], by rw [hd, hen]⟩

/-- An instruction is determined by its opcode and operand bytes. -/
theorem encode_injective {i j : Instr} (ho : i.opcode = j.opcode) (hb : i.operandBytes = j.operandBytes) : i = j := by
  cases i <;> cases j <;> first
    | (simp [Instr.opcode] at ho; done)
    | rfl
    | (simp only [Instr.operandBytes, Instr.registerOperands, List.cons.injEq, and_true] at hb
       obtain ⟨rfl, rfl⟩ := hb; rfl)

/-- The operand bytes are as many as bits 7:6 of the opcode say (R80). -/
theorem operandBytes_length (i : Instr) : i.operandBytes.length = operandCount i.opcode := by
  cases i <;> simp [Instr.operandBytes, Instr.registerOperands, Instr.opcode, operandCount]

theorem operandCount_le (i : Instr) : operandCount i.opcode ≤ 2 := by
  cases i <;> simp [Instr.opcode, operandCount]

end Sys2Proof
end

