-- ==== Sys2Proof/Laws/Shapes.lean ====
section
/-! SUPPORT. One equation per shape of instruction, for operands that name registers, and the fault when one names
none. -/

namespace Sys2Proof.Machine

theorem names_iff {c : Config} {b : Byte} {r : Reg} : NamesRegister c b r ↔ regIndex c.regIndex b = some r :=
  regIndex_eq_some.symm

theorem failWith_eq (code : FaultCode) (s : State) : failWith code s = .next (faulted code s) := rfl

theorem aluBinary_eq {ra rb : Byte} {s : State} {i j : Reg} (f : Byte → Byte → Byte)
    (hi : NamesRegister s.config ra i) (hj : NamesRegister s.config rb j) :
    aluBinary f ra rb s = .next (s.writeReg i (f (s.readReg i) (s.readReg j))).autoAdvance :=
  withRegs_of_some _ (names_iff.1 hi) (names_iff.1 hj)

theorem aluUnary_eq {ra : Byte} {s : State} {i : Reg} (f : Byte → Byte) (hi : NamesRegister s.config ra i) :
    aluUnary f ra s = .next (s.writeReg i (f (s.readReg i))).autoAdvance :=
  withReg_of_some _ (names_iff.1 hi)

theorem aluDivide_eq {ra rb : Byte} {s : State} {i j : Reg} (f : Byte → Byte → Byte)
    (hi : NamesRegister s.config ra i) (hj : NamesRegister s.config rb j) :
    aluDivide f ra rb s = if s.readReg j = 0 then .next (faulted .divZero s)
      else .next (s.writeReg i (f (s.readReg i) (s.readReg j))).autoAdvance :=
  withRegs_of_some _ (names_iff.1 hi) (names_iff.1 hj)

theorem execCmp_eq {ra rb : Byte} {s : State} {i j : Reg}
    (hi : NamesRegister s.config ra i) (hj : NamesRegister s.config rb j) :
    execCmp ra rb s = .next (s.setFl (compareFlags (s.readReg i) (s.readReg j))).autoAdvance :=
  withRegs_of_some _ (names_iff.1 hi) (names_iff.1 hj)

theorem execLdi_eq {ra imm : Byte} {s : State} {i : Reg} (hi : NamesRegister s.config ra i) :
    execLdi ra imm s = .next (s.writeReg i imm).autoAdvance :=
  withReg_of_some _ (names_iff.1 hi)

theorem execLd_eq {ra rb : Byte} {s : State} {i j : Reg}
    (hi : NamesRegister s.config ra i) (hj : NamesRegister s.config rb j) :
    execLd ra rb s = match s.config.ldSemantics with
      | .load => .next (s.writeReg i (s.readMem (s.readReg j))).autoAdvance
      | .refuse => .refused .ldSemanticsNotInSource :=
  withRegs_of_some _ (names_iff.1 hi) (names_iff.1 hj)

theorem execSt_eq {ra rb : Byte} {s : State} {i j : Reg}
    (hi : NamesRegister s.config ra i) (hj : NamesRegister s.config rb j) :
    execSt ra rb s = .next (s.writeReg i (s.readReg j)).autoAdvance :=
  withRegs_of_some _ (names_iff.1 hi) (names_iff.1 hj)

theorem execPrn_eq {ra : Byte} {s : State} {i : Reg} (hi : NamesRegister s.config ra i) :
    execPrn ra s = .next (s.emitOut .dec (s.readReg i)).autoAdvance :=
  withReg_of_some _ (names_iff.1 hi)

theorem execPra_eq {ra : Byte} {s : State} {i : Reg} (hi : NamesRegister s.config ra i) :
    execPra ra s = .next (s.emitOut .chr (s.readMem (s.readReg i))).autoAdvance :=
  withReg_of_some _ (names_iff.1 hi)

theorem execPush_eq {ra : Byte} {s : State} {i : Reg} (hi : NamesRegister s.config ra i) :
    execPush ra s = .next (s.pushByte (s.readReg i)).autoAdvance :=
  withReg_of_some _ (names_iff.1 hi)

theorem execPop_eq {ra : Byte} {s : State} {i : Reg} (hi : NamesRegister s.config ra i) :
    execPop ra s = if s.stackUnderflows then .next (faulted .stackUnderflow s)
      else .next (s.bumpSp.writeReg i s.popByte).autoAdvance :=
  withReg_of_some _ (names_iff.1 hi)

theorem execCall_eq {ra : Byte} {s : State} {i : Reg} (hi : NamesRegister s.config ra i) :
    execCall ra s = if s.config.pcOverflow = .fault ∧ 256 ≤ s.pc + 2 then .next (faulted .addrRange s)
      else .next ((s.pushByte (wrap8 (s.pc + 2))).setPc (s.readReg i).toNat).autoAdvance :=
  withReg_of_some _ (names_iff.1 hi)

theorem execJmp_eq {ra : Byte} {s : State} {i : Reg} (hi : NamesRegister s.config ra i) :
    execJmp ra s = .next (s.setPc (s.readReg i).toNat).autoAdvance :=
  withReg_of_some _ (names_iff.1 hi)

theorem jumpIf_eq {taken : Bool} {ra : Byte} {s : State} {i : Reg} (hi : NamesRegister s.config ra i) :
    jumpIf taken ra s =
      .next (s.setPc (if taken then (s.readReg i).toNat else addr s.config (s.pc + 2))).autoAdvance :=
  withReg_of_some _ (names_iff.1 hi)

/-- POP and RET fault exactly here (43_stack.md R235). -/
theorem stackUnderflows_iff {s : State} :
    s.stackUnderflows = true ↔ s.config.emptyPop = .faultAtBase ∧ s.sp = 0xF4 := by
  simp [State.stackUnderflows, spReset]

theorem stackUnderflows_eq_false {s : State} :
    s.stackUnderflows = false ↔ s.config.emptyPop = .mechanical ∨ s.sp ≠ 0xF4 := by
  rw [← Bool.not_eq_true, stackUnderflows_iff, not_and_or]
  cases s.config.emptyPop <;> simp

/-- CMP leaves exactly one of E, G, L (41_alu.md R152). -/
theorem compareFlags_cases (a b : Byte) :
    (a.toNat = b.toNat ∧ compareFlags a b = 1) ∨ (a.toNat > b.toNat ∧ compareFlags a b = 2) ∨
    (a.toNat < b.toNat ∧ compareFlags a b = 4) := by
  unfold compareFlags
  by_cases h : a = b
  · exact .inl ⟨by rw [h], by simp [h]⟩
  · have hne : a.toNat ≠ b.toNat := fun he => h (BitVec.eq_of_toNat_eq he)
    by_cases hgt : a.toNat > b.toNat
    · exact .inr (.inl ⟨hgt, by simp [h, hgt]⟩)
    · exact .inr (.inr ⟨by omega, by simp [h, hgt]⟩)

end Sys2Proof.Machine
end

