-- ==== Sys2Proof/Laws/Effect.lean ====
section
/-! SUPPORT. Said once: all that an instruction can do when it answers a next state. Whole-machine facts are read off
`exec_effect` by cases, without unfolding a meaning. -/

namespace Sys2Proof.Machine

/-- Why an instruction faults in its check or its execute phase (60_exceptions.md R281, R284). -/
inductive FaultCause (i : Instr) (s : State) : FaultCode → Prop where
  | badRegister (h : ∃ b ∈ i.registerOperands, NamesNoRegister s.config b) : FaultCause i s .badRegister
  | divZero (h : ∃ ra rb j, (i = .mod ra rb ∨ i = .div ra rb) ∧ NamesRegister s.config rb j ∧ s.readReg j = 0) :
      FaultCause i s .divZero
  | stackUnderflow (hp : s.config.emptyPop = .faultAtBase) (hs : s.sp = 0xF4)
      (h : i = .ret ∨ ∃ ra, i = .pop ra) : FaultCause i s .stackUnderflow
  | addrRange (hp : s.config.pcOverflow = .fault) (h : ∃ ra, i = .call ra) (hr : 256 ≤ s.pc + 2) :
      FaultCause i s .addrRange

/-- The next states of an instruction. -/
inductive Effect (i : Instr) (s : State) : State → Prop where
  /-- a fault, and nothing else -/
  | fault (code : FaultCode) (cause : FaultCause i s code) : Effect i s (faulted code s)
  /-- the register named by the first operand is written -/
  | register (r : Reg) (v : Byte) (hi : i.writesFirstOperand = true) (hn : i.usesStack = false)
      (hr : ∃ b, i.registerOperands.head? = some b ∧ NamesRegister s.config b r) :
      Effect i s (s.writeReg r v).autoAdvance
  /-- CMP writes FL -/
  | flags (a b : Byte) (hi : ∃ ra rb, i = .cmp ra rb) : Effect i s (s.setFl (compareFlags a b)).autoAdvance
  /-- PRN and PRA emit one event -/
  | output (kind : OutKind) (b : Byte)
      (hi : (kind = .dec ∧ ∃ ra, i = .prn ra) ∨ (kind = .chr ∧ ∃ ra, i = .pra ra)) :
      Effect i s (s.emitOut kind b).autoAdvance
  /-- PUSH -/
  | push (v : Byte) (hi : ∃ ra, i = .push ra) : Effect i s (s.pushByte v).autoAdvance
  /-- POP -/
  | pop (r : Reg) (hi : ∃ ra, i = .pop ra ∧ NamesRegister s.config ra r) :
      Effect i s (s.bumpSp.writeReg r s.popByte).autoAdvance
  /-- CALL -/
  | call (v : Byte) (target : Byte) (hi : ∃ ra, i = .call ra) :
      Effect i s ((s.pushByte v).setPc target.toNat).autoAdvance
  /-- RET -/
  | ret (hi : i = .ret) : Effect i s (s.bumpSp.setPc s.popByte.toNat).autoAdvance
  /-- JMP, JEQ and JNE: a register's value, or past the operand -/
  | jump (target : Nat) (hi : ∃ ra, i = .jmp ra ∨ i = .jeq ra ∨ i = .jne ra)
      (ht : target < 256 ∨ target = addr s.config (s.pc + 2)) : Effect i s (s.setPc target).autoAdvance
  /-- HLT -/
  | halt (hi : i = .hlt) : Effect i s s.halt.autoAdvance

/-- What answers a next state either refuses nothing or is a fault: the two ends of an instruction. -/
theorem next_injective {s t : State} (h : (Host.Outcome.next s : Result) = .next t) : s = t := by
  cases h; rfl

section Shapes

variable {i : Instr} {s t : State} {ra rb : Byte}

theorem withReg_effect {body : Reg → Result} (h : withReg ra s body = .next t) (ho : ra ∈ i.registerOperands)
    (hb : ∀ k, NamesRegister s.config ra k → body k = .next t → Effect i s t) : Effect i s t := by
  rcases withReg_cases ra s body with ⟨hn, he⟩ | ⟨k, hk, he⟩ <;> rw [he] at h
  · exact next_injective h ▸ .fault _ (.badRegister ⟨ra, ho, regIndex_eq_none.1 hn⟩)
  · exact hb k (names_iff.2 hk) h

theorem withRegs_effect {body : Reg → Reg → Result} (h : withRegs ra rb s body = .next t)
    (ho : i.registerOperands = [ra, rb])
    (hb : ∀ k l, NamesRegister s.config ra k → NamesRegister s.config rb l → body k l = .next t → Effect i s t) :
    Effect i s t :=
  withReg_effect h (by simp [ho]) fun k hk hk' => withReg_effect hk' (by simp [ho]) fun l hl hl' => hb k l hk hl hl'

theorem aluUnary_effect {f : Byte → Byte} (h : aluUnary f ra s = .next t)
    (hi : i.writesFirstOperand = true) (hn : i.usesStack = false) (ho : i.registerOperands = [ra]) :
    Effect i s t :=
  withReg_effect h (by simp [ho]) fun k hk he => next_injective he ▸ .register k _ hi hn ⟨ra, by simp [ho], hk⟩

theorem aluBinary_effect {f : Byte → Byte → Byte} (h : aluBinary f ra rb s = .next t)
    (hi : i.writesFirstOperand = true) (hn : i.usesStack = false) (ho : i.registerOperands = [ra, rb]) :
    Effect i s t :=
  withRegs_effect h ho fun k _ hk _ he => next_injective he ▸ .register k _ hi hn ⟨ra, by simp [ho], hk⟩

theorem aluDivide_effect {f : Byte → Byte → Byte} (h : aluDivide f ra rb s = .next t)
    (hd : i = .mod ra rb ∨ i = .div ra rb)
    (hi : i.writesFirstOperand = true) (hn : i.usesStack = false) (ho : i.registerOperands = [ra, rb]) :
    Effect i s t := by
  refine withRegs_effect h ho fun k l hk hl he => ?_
  split at he
  · exact next_injective he ▸ .fault _ (.divZero ⟨ra, rb, l, hd, hl, ‹_›⟩)
  · exact next_injective he ▸ .register k _ hi hn ⟨ra, by simp [ho], hk⟩

theorem jumpIf_effect {taken : Bool} (h : jumpIf taken ra s = .next t)
    (hi : ∃ ra, i = .jmp ra ∨ i = .jeq ra ∨ i = .jne ra) (ho : ra ∈ i.registerOperands) : Effect i s t :=
  withReg_effect h ho fun k _ hk => next_injective hk ▸ .jump _ hi (by
    split
    · exact .inl (BitVec.isLt _)
    · exact .inr rfl)

end Shapes

/-- All that an instruction can do when it answers a next state. -/
theorem exec_effect {i : Instr} {s t : State} (h : exec i s = .next t) : Effect i s t := by
  cases i with
  | hlt => exact next_injective h ▸ .halt rfl
  | ret =>
    simp only [exec, execRet] at h
    split at h
    · rename_i hu
      exact next_injective h ▸
        .fault _ (.stackUnderflow (stackUnderflows_iff.1 hu).1 (stackUnderflows_iff.1 hu).2 (.inl rfl))
    · exact next_injective h ▸ .ret rfl
  | push ra => exact withReg_effect h List.mem_cons_self fun k _ hk => next_injective hk ▸ .push _ ⟨ra, rfl⟩
  | pop ra =>
    refine withReg_effect h List.mem_cons_self fun k hn hk => ?_
    split at hk
    · rename_i hu
      exact next_injective hk ▸
        .fault _ (.stackUnderflow (stackUnderflows_iff.1 hu).1 (stackUnderflows_iff.1 hu).2 (.inr ⟨ra, rfl⟩))
    · exact next_injective hk ▸ .pop k ⟨ra, rfl, hn⟩
  | prn ra => exact withReg_effect h List.mem_cons_self fun k _ hk => next_injective hk ▸ .output .dec _ (.inl ⟨rfl, ra, rfl⟩)
  | pra ra => exact withReg_effect h List.mem_cons_self fun k _ hk => next_injective hk ▸ .output .chr _ (.inr ⟨rfl, ra, rfl⟩)
  | call ra =>
    refine withReg_effect h List.mem_cons_self fun k _ hk => ?_
    split at hk
    · rename_i hu
      exact next_injective hk ▸ .fault _ (.addrRange hu.1 ⟨ra, rfl⟩ hu.2)
    · exact next_injective hk ▸ .call _ _ ⟨ra, rfl⟩
  | jmp ra => exact withReg_effect h List.mem_cons_self fun k _ hk => next_injective hk ▸ .jump _ ⟨ra, .inl rfl⟩ (.inl (BitVec.isLt _))
  | jeq ra => exact jumpIf_effect h ⟨ra, .inr (.inl rfl)⟩ List.mem_cons_self
  | jne ra => exact jumpIf_effect h ⟨ra, .inr (.inr rfl)⟩ List.mem_cons_self
  | inc ra => exact aluUnary_effect h rfl rfl rfl
  | dec ra => exact aluUnary_effect h rfl rfl rfl
  | not ra => exact aluUnary_effect h rfl rfl rfl
  | ldi ra imm => exact withReg_effect h List.mem_cons_self fun k hn hk => next_injective hk ▸ .register k _ rfl rfl ⟨ra, rfl, hn⟩
  | ld ra rb =>
    refine withRegs_effect h rfl fun k l hn _ hk => ?_
    split at hk
    · exact next_injective hk ▸ .register k _ rfl rfl ⟨ra, rfl, hn⟩
    · cases hk
  | st ra rb => exact withRegs_effect h rfl fun k l hn _ hk => next_injective hk ▸ .register k _ rfl rfl ⟨ra, rfl, hn⟩
  | cmp ra rb => exact withRegs_effect h rfl fun k l _ _ hk => next_injective hk ▸ .flags _ _ ⟨ra, rb, rfl⟩
  | add ra rb => exact aluBinary_effect h rfl rfl rfl
  | mul ra rb => exact aluBinary_effect h rfl rfl rfl
  | mod ra rb => exact aluDivide_effect h (.inl rfl) rfl rfl rfl
  | and ra rb => exact aluBinary_effect h rfl rfl rfl
  | or ra rb => exact aluBinary_effect h rfl rfl rfl
  | xor ra rb => exact aluBinary_effect h rfl rfl rfl
  | shl ra rb => exact aluBinary_effect h rfl rfl rfl
  | shr ra rb => exact aluBinary_effect h rfl rfl rfl
  | sub ra rb => exact aluBinary_effect h rfl rfl rfl
  | div ra rb => exact aluDivide_effect h (.inr rfl) rfl rfl rfl

end Sys2Proof.Machine
end

