-- ==== Sys2Proof/Laws/PerInstr.lean ====
section
/-! SUPPORT. A fact about every instruction as syntax, one lemma per constructor: its encoding is one opcode byte and
as many operand bytes as bits 7:6 of that byte say (30_encoding.md R80). -/

namespace Sys2Proof.Laws.Length

/-- The instruction's encoding is as long as its opcode says (R80). -/
def Statement (i : Instr) : Prop := (encode i).length = 1 + operandCount i.opcode

theorem hlt : Statement .hlt := by
  simp [Statement, encode, Instr.operandBytes, Instr.registerOperands, Instr.opcode, operandCount]

theorem ret : Statement .ret := by
  simp [Statement, encode, Instr.operandBytes, Instr.registerOperands, Instr.opcode, operandCount]

theorem push (ra : Byte) : Statement (.push ra) := by
  simp [Statement, encode, Instr.operandBytes, Instr.registerOperands, Instr.opcode, operandCount]

theorem pop (ra : Byte) : Statement (.pop ra) := by
  simp [Statement, encode, Instr.operandBytes, Instr.registerOperands, Instr.opcode, operandCount]

theorem prn (ra : Byte) : Statement (.prn ra) := by
  simp [Statement, encode, Instr.operandBytes, Instr.registerOperands, Instr.opcode, operandCount]

theorem pra (ra : Byte) : Statement (.pra ra) := by
  simp [Statement, encode, Instr.operandBytes, Instr.registerOperands, Instr.opcode, operandCount]

theorem call (ra : Byte) : Statement (.call ra) := by
  simp [Statement, encode, Instr.operandBytes, Instr.registerOperands, Instr.opcode, operandCount]

theorem jmp (ra : Byte) : Statement (.jmp ra) := by
  simp [Statement, encode, Instr.operandBytes, Instr.registerOperands, Instr.opcode, operandCount]

theorem jeq (ra : Byte) : Statement (.jeq ra) := by
  simp [Statement, encode, Instr.operandBytes, Instr.registerOperands, Instr.opcode, operandCount]

theorem jne (ra : Byte) : Statement (.jne ra) := by
  simp [Statement, encode, Instr.operandBytes, Instr.registerOperands, Instr.opcode, operandCount]

theorem inc (ra : Byte) : Statement (.inc ra) := by
  simp [Statement, encode, Instr.operandBytes, Instr.registerOperands, Instr.opcode, operandCount]

theorem dec (ra : Byte) : Statement (.dec ra) := by
  simp [Statement, encode, Instr.operandBytes, Instr.registerOperands, Instr.opcode, operandCount]

theorem not (ra : Byte) : Statement (.not ra) := by
  simp [Statement, encode, Instr.operandBytes, Instr.registerOperands, Instr.opcode, operandCount]

theorem ldi (ra imm : Byte) : Statement (.ldi ra imm) := by
  simp [Statement, encode, Instr.operandBytes, Instr.opcode, operandCount]

theorem ld (ra rb : Byte) : Statement (.ld ra rb) := by
  simp [Statement, encode, Instr.operandBytes, Instr.registerOperands, Instr.opcode, operandCount]

theorem st (ra rb : Byte) : Statement (.st ra rb) := by
  simp [Statement, encode, Instr.operandBytes, Instr.registerOperands, Instr.opcode, operandCount]

theorem add (ra rb : Byte) : Statement (.add ra rb) := by
  simp [Statement, encode, Instr.operandBytes, Instr.registerOperands, Instr.opcode, operandCount]

theorem mul (ra rb : Byte) : Statement (.mul ra rb) := by
  simp [Statement, encode, Instr.operandBytes, Instr.registerOperands, Instr.opcode, operandCount]

theorem mod (ra rb : Byte) : Statement (.mod ra rb) := by
  simp [Statement, encode, Instr.operandBytes, Instr.registerOperands, Instr.opcode, operandCount]

theorem cmp (ra rb : Byte) : Statement (.cmp ra rb) := by
  simp [Statement, encode, Instr.operandBytes, Instr.registerOperands, Instr.opcode, operandCount]

theorem and (ra rb : Byte) : Statement (.and ra rb) := by
  simp [Statement, encode, Instr.operandBytes, Instr.registerOperands, Instr.opcode, operandCount]

theorem or (ra rb : Byte) : Statement (.or ra rb) := by
  simp [Statement, encode, Instr.operandBytes, Instr.registerOperands, Instr.opcode, operandCount]

theorem xor (ra rb : Byte) : Statement (.xor ra rb) := by
  simp [Statement, encode, Instr.operandBytes, Instr.registerOperands, Instr.opcode, operandCount]

theorem shl (ra rb : Byte) : Statement (.shl ra rb) := by
  simp [Statement, encode, Instr.operandBytes, Instr.registerOperands, Instr.opcode, operandCount]

theorem shr (ra rb : Byte) : Statement (.shr ra rb) := by
  simp [Statement, encode, Instr.operandBytes, Instr.registerOperands, Instr.opcode, operandCount]

theorem sub (ra rb : Byte) : Statement (.sub ra rb) := by
  simp [Statement, encode, Instr.operandBytes, Instr.registerOperands, Instr.opcode, operandCount]

theorem div (ra rb : Byte) : Statement (.div ra rb) := by
  simp [Statement, encode, Instr.operandBytes, Instr.registerOperands, Instr.opcode, operandCount]

end Sys2Proof.Laws.Length
end

