-- ==== Sys2Proof/Laws/Step.lean ====
section
/-! SUPPORT. Said once: all that the fetch, and a step, can do (40_execution_cycle.md R111 to R119). -/

namespace Sys2Proof.Machine

/-! ### Reading bytes -/

theorem readAt_of_lt {s : State} {a : Nat} (h : a < 256) : readAt s a = some (s.mem.read a) := by
  simp [readAt, memSize, h]

theorem readAt_of_le {s : State} {a : Nat} (h : 256 ≤ a) : readAt s a = none := by
  simp [readAt, memSize, Nat.not_lt.2 h]

theorem latch_length_le (s : State) (as : List Nat) : (latch s as).length ≤ as.length := by
  induction as with
  | nil => exact le_refl _
  | cons a as ih =>
    unfold latch
    split
    · simp
    · simpa using ih

/-- Operand bytes are missing only where an address is out of range, which `wrap` never gives (R14). -/
theorem latch_missing {s : State} {as : List Nat} (h : (latch s as).length < as.length) : ∃ a ∈ as, 256 ≤ a := by
  induction as with
  | nil => simp at h
  | cons a as ih =>
    by_cases ha : a < 256
    · simp only [latch, readAt_of_lt ha, List.length_cons, Nat.add_lt_add_iff_right] at h
      obtain ⟨b, hb, hb'⟩ := ih h
      exact ⟨b, List.mem_cons_of_mem _ hb, hb'⟩
    · exact ⟨a, List.mem_cons_self, by omega⟩

theorem latch_eq (s : State) (as : List Nat) : latch s as = (as.takeWhile (· < 256)).map s.mem.read := by
  induction as with
  | nil => rfl
  | cons a as ih =>
    by_cases ha : a < 256
    · simp [latch, readAt_of_lt ha, ha, ih]
    · simp [latch, readAt_of_le (s := s) (by omega : 256 ≤ a), ha]

/-! ### The fetch -/

/-- The bytes that the operand latching reads are the first of those after the opcode byte. -/
theorem latch_take (s : State) {n : Nat} (hn : n ≤ 2) :
    latch s (operandAddresses s n) = (latch s (operandAddresses s 2)).take n := by
  have : n = 0 ∨ n = 1 ∨ n = 2 := by omega
  rcases this with rfl | rfl | rfl
  · rfl
  · simp only [operandAddresses, List.range_succ, List.range_zero, List.nil_append, List.cons_append, List.map_cons,
      List.map_nil, latch]
    cases readAt s (addr s.config (s.pc + 1 + 0)) <;> rfl
  · exact (List.take_of_length_le (by simpa [operandAddresses] using latch_length_le s (operandAddresses s 2))).symm

theorem codeAt_eq {s : State} (h : s.pc < 256) : codeAt s = s.mem.read s.pc :: latch s (operandAddresses s 2) := by
  simp [codeAt, latch_eq, operandAddresses, List.range_succ, h]

/-- All that the front of a step can do. -/
inductive FetchCase (s : State) : Fetched → Prop where
  /-- pc is out of range -/
  | pcOut (h : 256 ≤ s.pc) : FetchCase s (.ended (faulted .addrRange s))
  /-- the opcode has no entry -/
  | unknown (h : s.pc < 256) (b : Byte) (hb : s.mem.read s.pc = b) (hl : lookup s.config.subDivDecode b = none) :
      FetchCase s (.ended (s.setIr b).unknownOpcode)
  /-- an operand byte is out of range -/
  | operandOut (h : s.pc < 256) (i : Instr) (hb : s.mem.read s.pc = i.opcode)
      (hd : i.decodedUnder s.config.subDivDecode = true) (hp : s.config.pcOverflow = .fault)
      (ho : 256 < s.pc + (encode i).length) : FetchCase s (.ended (faulted .addrRange (s.setIr i.opcode)))
  /-- an instruction is decoded and its operands are latched -/
  | decoded (h : s.pc < 256) (i : Instr) (hb : s.mem.read s.pc = i.opcode)
      (hd : i.decodedUnder s.config.subDivDecode = true) (hc : InstrAt s i) : FetchCase s (.instr i (s.setIr i.opcode))

/-- Every entry of the dispatch table is some instruction's. -/
theorem instr_of_lookup {d : SubDivDecode} {b : Byte} {row : Row} (h : lookup d b = some row) :
    ∃ i : Instr, i.opcode = b ∧ i.decodedUnder d = true := by
  rcases decode_known [0, 0, 0] h with ⟨i, -, ho, -, -, hd⟩ | ⟨hlt, -⟩
  · exact ⟨i, ho, hd⟩
  · have : operandCount b < 4 := Nat.div_lt_of_lt_mul (by omega)
    simp only [List.length_cons, List.length_nil] at hlt
    omega

theorem fetch_cases (s : State) : FetchCase s (fetch s) := by
  by_cases h : s.pc < 256
  · have hr := readAt_of_lt (s := s) h
    cases hl : lookup s.config.subDivDecode (s.mem.read s.pc) with
    | none =>
      have hf : fetch s = .ended (s.setIr (s.mem.read s.pc)).unknownOpcode := by
        simp [fetch, fetchBytes, hr, hl, decode_unknown]
      rw [hf]; exact .unknown h _ rfl hl
    | some row =>
      obtain ⟨i, hi, hd⟩ := instr_of_lookup hl
      have hn := operandBytes_length i
      have hle := operandCount_le i
      rw [← hi] at hl
      have hfb : fetchBytes s = i.opcode :: latch s (operandAddresses s (operandCount i.opcode)) := by
        simp [fetchBytes, hr, ← hi, hl]
      rcases decode_known (latch s (operandAddresses s (operandCount i.opcode))) hl with
        ⟨j, hj, ho, hb, hjn, hu⟩ | ⟨hlt, hj⟩
      · have hf : fetch s = .instr j (s.setIr j.opcode) := by
          simp [fetch, hfb, hj]
        rw [hf]
        refine .decoded h j (hi.symm.trans ho.symm) hu ?_
        rw [latch_take s hle] at hb
        have hcode : codeAt s = i.opcode :: latch s (operandAddresses s 2) := by rw [codeAt_eq h, hi]
        rcases decode_known (latch s (operandAddresses s 2)) hl with ⟨k, hk, ho', hb', -, -⟩ | ⟨hlt, -⟩
        · have : k = j := encode_injective (ho'.trans ho.symm) (by rw [hb', hb, List.take_take, min_self])
          exact ⟨_, by rw [hcode, hk, this]⟩
        · rw [hb, List.length_take, List.length_take] at hjn
          omega
      · have hf : fetch s = .ended (faulted .addrRange (s.setIr i.opcode)) := by
          simp [fetch, hfb, hj]; rfl
        rw [hf]
        obtain ⟨a, ha, ha'⟩ := latch_missing (hlt.trans_eq (by simp [operandAddresses]))
        obtain ⟨k, hk, rfl⟩ := List.mem_map.1 ha
        cases hp : s.config.pcOverflow with
        | wrap => rw [addr_wrap hp] at ha'; omega
        | fault =>
          rw [addr_fault hp] at ha'
          have := List.mem_range.1 hk
          exact .operandOut h i hi.symm hd hp (by simp [encode, hn]; omega)
  · have hf : fetch s = .ended (faulted .addrRange s) := by
      simp [fetch, fetchBytes, readAt_of_le (s := s) (by omega : 256 ≤ s.pc)]; rfl
    rw [hf]; exact .pcOut (by omega)

/-! ### The step -/

/-- All that a step can do when it answers a next state. -/
theorem step_cases {s t : State} (h : step s = .next t) :
    s.status = .running ∧
    ((256 ≤ s.pc ∧ t = faulted .addrRange s) ∨
     (∃ b, s.pc < 256 ∧ s.mem.read s.pc = b ∧ lookup s.config.subDivDecode b = none ∧
        t = (s.setIr b).unknownOpcode) ∨
     (∃ i, s.pc < 256 ∧ s.mem.read s.pc = i.opcode ∧ i.decodedUnder s.config.subDivDecode = true ∧
        s.config.pcOverflow = .fault ∧ 256 < s.pc + (encode i).length ∧
        t = faulted .addrRange (s.setIr i.opcode)) ∨
     (∃ i, s.pc < 256 ∧ s.mem.read s.pc = i.opcode ∧ i.decodedUnder s.config.subDivDecode = true ∧ InstrAt s i ∧
        Effect i (s.setIr i.opcode) t)) := by
  cases hs : s.status with
  | idle => simp [step, hs] at h
  | halted => simp [step, hs] at h
  | running =>
    refine ⟨rfl, ?_⟩
    have hc := fetch_cases s
    simp only [step, hs] at h
    generalize fetch s = f at h hc
    cases hc with
    | pcOut hp => exact .inl ⟨hp, (next_injective h).symm⟩
    | unknown hp b hb hl => exact .inr (.inl ⟨b, hp, hb, hl, (next_injective h).symm⟩)
    | operandOut hp i hb hd hw ho => exact .inr (.inr (.inl ⟨i, hp, hb, hd, hw, ho, (next_injective h).symm⟩))
    | decoded hp i hb hd hc => exact .inr (.inr (.inr ⟨i, hp, hb, hd, hc, exec_effect h⟩))

end Sys2Proof.Machine
end

