-- ==== Sys2Proof/Laws/Transport.lean ====
section
/-! SUPPORT. Carrying a change of the state through the cycle: a function on states that an instruction's parts commute
with, commutes with the instruction; and the bytes fetched depend on pc, memory and the configuration alone. -/

namespace Sys2Proof.Machine

/-- A function on states, over the next states a result answers. -/
def mapNext (f : State → State) : Result → Result
  | .next t => .next (f t)
  | .fault r => .fault r
  | .refused r => .refused r

/-- A change that keeps the configuration and commutes with the bad-register fault and with the execute phase,
commutes with a checked register operand. -/
theorem withReg_mapNext {f : State → State} {ra : Byte} {s : State} {body body' : Reg → Result}
    (hc : (f s).config = s.config) (hf : (f s).raiseFault .badRegister = f (s.raiseFault .badRegister))
    (hb : ∀ k, body' k = mapNext f (body k)) : withReg ra (f s) body' = mapNext f (withReg ra s body) := by
  unfold withReg
  rw [hc]
  cases regIndex s.config.regIndex ra with
  | none => simp [failWith, mapNext, hf]
  | some k => exact hb k

theorem latch_congr {s t : State} (h : t.mem = s.mem) (as : List Nat) : latch t as = latch s as := by
  induction as with
  | nil => rfl
  | cons a as ih => simp only [latch, readAt, h, ih]

/-- The bytes a step reads before its execute phase depend on pc, memory and the configuration alone. -/
theorem fetchBytes_congr {s t : State} (hp : t.pc = s.pc) (hm : t.mem = s.mem) (hc : t.config = s.config) :
    fetchBytes t = fetchBytes s := by
  simp only [fetchBytes, readAt, operandAddresses, latch_congr hm, hp, hm, hc]

end Sys2Proof.Machine
end

