-- ==== Sys2Proof/Machine/Assembler.lean ====
section
/-! DEFINITION. The assembler text of an instruction (30_encoding.md R93): mnemonic, then operands in memory order.
Registers are `R0` to `R7`, the immediate is decimal (notes/assumptions/29.md). -/

namespace Sys2Proof.Machine

/-- The mnemonic, as R87 writes it. -/
def mnemonic : Instr → String
  | .hlt => "HLT"
  | .ret => "RET"
  | .push _ => "PUSH"
  | .pop _ => "POP"
  | .prn _ => "PRN"
  | .pra _ => "PRA"
  | .call _ => "CALL"
  | .jmp _ => "JMP"
  | .jeq _ => "JEQ"
  | .jne _ => "JNE"
  | .inc _ => "INC"
  | .dec _ => "DEC"
  | .not _ => "NOT"
  | .ldi _ _ => "LDI"
  | .ld _ _ => "LD"
  | .st _ _ => "ST"
  | .add _ _ => "ADD"
  | .mul _ _ => "MUL"
  | .mod _ _ => "MOD"
  | .cmp _ _ => "CMP"
  | .and _ _ => "AND"
  | .or _ _ => "OR"
  | .xor _ _ => "XOR"
  | .shl _ _ => "SHL"
  | .shr _ _ => "SHR"
  | .sub _ _ => "SUB"
  | .div _ _ => "DIV"

/-- The text of a register operand byte, none where it names no register (R84, R93). -/
def registerText (b : Byte) : Option String := (regIndex .fault b).map fun r => "R" ++ toString r.val

/-- The texts of the operands. -/
def operandTexts : Instr → Option (List String)
  | .ldi ra imm => (registerText ra).map fun r => [r, toString imm.toNat]
  | i => i.registerOperands.mapM registerText

/-- The assembler text, none for an instruction with an illegal operand (R91, R93). -/
def assemblerText (i : Instr) : Option String :=
  (operandTexts i).map fun ops =>
    if ops.isEmpty then mnemonic i else mnemonic i ++ " " ++ String.intercalate ", " ops

end Sys2Proof.Machine
end

