-- ==== Sys2Proof/Tests/Slice0.lean ====
section
/-! SUPPORT. Tests of the model: ill-formed instructions refused; a word of every constructor, written out from the
spec's encodings, decoded; one step of each instruction against the vectors of 95_test_vectors.md; and for every
statement with hypotheses a witness that meets them. -/

namespace Sys2Proof.Tests

open Sys2Proof.Machine

/-! ### Helpers -/

/-- A started core after reset. -/
def core0 : State := { State.reset with status := .running }

/-- The started core with these bytes at address 0 and these registers. -/
def coreWith (bytes : List Byte) (x : Vector Byte 8) : State :=
  { core0 with mem := Memory.writeList [] 0 bytes, x := x }

/-- The state in another configuration. -/
def under (c : Config) (s : State) : State := { s with config := c }

/-- The state a result answers, if it is a next state. -/
def nextOf : Result → Option State
  | .next t => some t
  | _ => none

/-- A part of the state after one step. -/
def after {α : Type} (s : State) (f : State → α) : Option α := (nextOf (step s)).map f

/-! ### WellFormed refuses (30_encoding.md R91) -/

theorem test_wf_first_register : (Instr.inc 8).wellFormed = false := by decide
theorem test_wf_first_register_of_ldi : (Instr.ldi 8 5).wellFormed = false := by decide
theorem test_wf_second_register : (Instr.add 1 9).wellFormed = false := by decide
theorem test_wf_immediate_is_free : (Instr.ldi 7 0xFF).wellFormed = true := by decide

/-! ### A word of every constructor (30_encoding.md R87; bytes in binary, opcode first) -/

theorem test_decode_hlt : decode .off [0b00000001] = .ok (.hlt, []) := by rfl
theorem test_decode_ret : decode .off [0b00010001] = .ok (.ret, []) := by rfl
theorem test_decode_push : decode .off [0b01000101, 0b00000001] = .ok (.push 1, []) := by rfl
theorem test_decode_pop : decode .off [0b01000110, 0b00000010] = .ok (.pop 2, []) := by rfl
theorem test_decode_prn : decode .off [0b01000111, 0b00000011] = .ok (.prn 3, []) := by rfl
theorem test_decode_pra : decode .off [0b01001000, 0b00000100] = .ok (.pra 4, []) := by rfl
theorem test_decode_call : decode .off [0b01010000, 0b00000101] = .ok (.call 5, []) := by rfl
theorem test_decode_jmp : decode .off [0b01010100, 0b00000110] = .ok (.jmp 6, []) := by rfl
theorem test_decode_jeq : decode .off [0b01010101, 0b00000111] = .ok (.jeq 7, []) := by rfl
theorem test_decode_jne : decode .off [0b01010110, 0b00000000] = .ok (.jne 0, []) := by rfl
theorem test_decode_inc : decode .off [0b01100101, 0b00000001] = .ok (.inc 1, []) := by rfl
theorem test_decode_dec : decode .off [0b01100110, 0b00000010] = .ok (.dec 2, []) := by rfl
theorem test_decode_not : decode .off [0b01101001, 0b00000011] = .ok (.not 3, []) := by rfl
theorem test_decode_ldi : decode .off [0b10000010, 0b00000001, 0b11110000] = .ok (.ldi 1 0xF0, []) := by rfl
theorem test_decode_ld : decode .off [0b10000011, 0b00000001, 0b00000010] = .ok (.ld 1 2, []) := by rfl
theorem test_decode_st : decode .off [0b10000100, 0b00000001, 0b00000010] = .ok (.st 1 2, []) := by rfl
theorem test_decode_add : decode .off [0b10100000, 0b00000001, 0b00000010] = .ok (.add 1 2, []) := by rfl
theorem test_decode_mul : decode .off [0b10100010, 0b00000001, 0b00000010] = .ok (.mul 1 2, []) := by rfl
theorem test_decode_mod : decode .off [0b10100100, 0b00000001, 0b00000010] = .ok (.mod 1 2, []) := by rfl
theorem test_decode_cmp : decode .off [0b10100111, 0b00000001, 0b00000010] = .ok (.cmp 1 2, []) := by rfl
theorem test_decode_and : decode .off [0b10101000, 0b00000001, 0b00000010] = .ok (.and 1 2, []) := by rfl
theorem test_decode_or : decode .off [0b10101010, 0b00000001, 0b00000010] = .ok (.or 1 2, []) := by rfl
theorem test_decode_xor : decode .off [0b10101011, 0b00000001, 0b00000010] = .ok (.xor 1 2, []) := by rfl
theorem test_decode_shl : decode .off [0b10101100, 0b00000001, 0b00000010] = .ok (.shl 1 2, []) := by rfl
theorem test_decode_shr : decode .off [0b10101101, 0b00000001, 0b00000010] = .ok (.shr 1 2, []) := by rfl
theorem test_decode_sub : decode .ls8 [0b10100001, 0b00000001, 0b00000010] = .ok (.sub 1 2, []) := by rfl
theorem test_decode_div : decode .ls8 [0b10100011, 0b00000001, 0b00000010] = .ok (.div 1 2, []) := by rfl

/-- Vector A6: 0xA1 is unknown by default. -/
theorem test_decode_sub_off : decode .off [0xA1, 0, 1] = .error (.unknownOpcode 0xA1) := by rfl
/-- R89: the byte of every unloaded cell is unknown. -/
theorem test_decode_zero : decode .ls8 [0x00] = .error (.unknownOpcode 0x00) := by rfl
theorem test_decode_missing : decode .off [0x82, 0] = .error (.missingOperand 0x82) := by rfl
/-- R89: 231 bytes are unknown under `off`, 229 under `ls8`. -/
theorem test_unknown_count :
    ((List.range 256).countP fun b => (lookup .off (wrap8 b)).isNone) = 231 ∧
    ((List.range 256).countP fun b => (lookup .ls8 (wrap8 b)).isNone) = 229 := by decide +kernel
theorem test_table_word : decodeTableWord 24 0x0908A0 = some (.add 8 9) := by decide
theorem test_table_word_short : decodeTableWord 8 0xA1 = some (.sub 0 0) := by decide

/-! ### Memory: the canonical form -/

theorem test_write_zero_removes : Memory.write [(3, 7), (9, 1)] 3 0 = [(9, 1)] := by decide
theorem test_write_in_order : Memory.write [(3, 7), (9, 1)] 5 2 = [(3, 7), (5, 2), (9, 1)] := by decide
theorem test_reset_memory_wf : State.reset.mem.wf = true := by decide

/-! ### One step (the vectors of 95_test_vectors.md) -/

/-- A2 -/
theorem test_add : after (coreWith [0xA0, 0, 1] #v[0x80, 0x80, 0, 0, 0, 0, 0, 0xF4])
    (fun t => (t.readReg 0, t.readReg 1, t.fl, t.pc)) = some (0x00, 0x80, 0, 3) := by decide
/-- A4 -/
theorem test_sub : after (under { defaultConfig with subDivDecode := .ls8 }
      (coreWith [0xA1, 0, 1] #v[5, 7, 0, 0, 0, 0, 0, 0xF4]))
    (fun t => (t.readReg 0, t.pc)) = some (0xFE, 3) := by decide
/-- A6 -/
theorem test_sub_off : after (coreWith [0xA1, 0, 1] #v[5, 7, 0, 0, 0, 0, 0, 0xF4])
    (fun t => (t.rep, t.readReg 0, t.pc)) = some ([⟨0xA1, 0⟩], 5, 1) := by decide
/-- A7 -/
theorem test_mul : after (coreWith [0xA2, 0, 1] #v[0xFF, 0xFF, 0, 0, 0, 0, 0, 0xF4])
    (fun t => (t.readReg 0, t.pc)) = some (0x01, 3) := by decide
/-- A11 -/
theorem test_div : after (under { defaultConfig with subDivDecode := .ls8 }
      (coreWith [0xA3, 0, 1] #v[0xFF, 0x10, 0, 0, 0, 0, 0, 0xF4]))
    (fun t => (t.readReg 0, t.pc)) = some (0x0F, 3) := by decide
/-- A12 -/
theorem test_div_zero : after (under { defaultConfig with subDivDecode := .ls8 }
      (coreWith [0xA3, 0, 1] #v[3, 0, 0, 0, 0, 0, 0, 0xF4]))
    (fun t => (t.readReg 0, t.pc, t.status, t.faultCode.code)) = some (3, 0, .halted, 1) := by decide
/-- A13 -/
theorem test_mod : after (coreWith [0xA4, 0, 1] #v[7, 2, 0, 0, 0, 0, 0, 0xF4])
    (fun t => (t.readReg 0, t.pc)) = some (1, 3) := by decide
/-- A17, and IR as in P5 -/
theorem test_mod_zero : after (coreWith [0xA4, 0, 1] #v[7, 0, 0, 0, 0, 0, 0, 0xF4])
    (fun t => (t.readReg 0, t.pc, t.ir, t.status, t.faultCode)) = some (7, 0, 0xA4, .halted, .divZero) := by decide
/-- A19 -/
theorem test_inc : after (coreWith [0x65, 0] #v[0xFF, 0, 0, 0, 0, 0, 0, 0xF4])
    (fun t => (t.readReg 0, t.pc)) = some (0, 2) := by decide
/-- A21 -/
theorem test_dec : after (coreWith [0x66, 0] #v[0, 0, 0, 0, 0, 0, 0, 0xF4])
    (fun t => (t.readReg 0, t.pc)) = some (0xFF, 2) := by decide
/-- A25 -/
theorem test_cmp_unsigned : after (coreWith [0xA7, 0, 1] #v[0x80, 0x7F, 0, 0, 0, 0, 0, 0xF4])
    (fun t => (t.fl, t.readReg 0, t.pc)) = some (0x02, 0x80, 3) := by decide
/-- A27 -/
theorem test_cmp_same : after (coreWith [0xA7, 3, 3] #v[0, 0, 0, 9, 0, 0, 0, 0xF4])
    (fun t => t.fl) = some 0x01 := by decide
/-- A28 -/
theorem test_and : after (coreWith [0xA8, 0, 1] #v[0xF0, 0x3C, 0, 0, 0, 0, 0, 0xF4])
    (fun t => t.readReg 0) = some 0x30 := by decide
/-- A29 -/
theorem test_or : after (coreWith [0xAA, 0, 1] #v[0xF0, 0x0F, 0, 0, 0, 0, 0, 0xF4])
    (fun t => t.readReg 0) = some 0xFF := by decide
/-- A30 -/
theorem test_xor : after (coreWith [0xAB, 0, 1] #v[0xFF, 0x0F, 0, 0, 0, 0, 0, 0xF4])
    (fun t => t.readReg 0) = some 0xF0 := by decide
/-- A32 -/
theorem test_not : after (coreWith [0x69, 0] #v[0xA5, 0, 0, 0, 0, 0, 0, 0xF4])
    (fun t => (t.readReg 0, t.pc)) = some (0x5A, 2) := by decide
/-- A34 -/
theorem test_shl : after (coreWith [0xAC, 0, 1] #v[0x81, 1, 0, 0, 0, 0, 0, 0xF4])
    (fun t => t.readReg 0) = some 0x02 := by decide
/-- A36 -/
theorem test_shl_eight : after (coreWith [0xAC, 0, 1] #v[1, 8, 0, 0, 0, 0, 0, 0xF4])
    (fun t => t.readReg 0) = some 0x00 := by decide
/-- A38 -/
theorem test_shr : after (coreWith [0xAD, 0, 1] #v[0x80, 7, 0, 0, 0, 0, 0, 0xF4])
    (fun t => t.readReg 0) = some 0x01 := by decide
/-- A41 -/
theorem test_shr_all : after (coreWith [0xAD, 0, 1] #v[0xFF, 0xFF, 0, 0, 0, 0, 0, 0xF4])
    (fun t => t.readReg 0) = some 0x00 := by decide
/-- M3 -/
theorem test_ldi : after (coreWith [0x82, 5, 0xFF] #v[0, 0, 0, 0, 0, 0, 0, 0xF4])
    (fun t => (t.readReg 5, t.pc)) = some (0xFF, 3) := by decide
/-- M4 -/
theorem test_ldi_bad_register : after (coreWith [0x82, 8, 5] #v[0, 0, 0, 0, 0, 0, 0, 0xF4])
    (fun t => (t.readReg 0, t.pc, t.status, t.faultCode.code)) = some (0, 0, .halted, 2) := by decide
/-- M5 -/
theorem test_ldi_mask3 : after (under { defaultConfig with regIndex := .mask3 }
      (coreWith [0x82, 8, 5] #v[0, 0, 0, 0, 0, 0, 0, 0xF4]))
    (fun t => (t.readReg 0, t.pc)) = some (5, 3) := by decide
/-- M7 -/
theorem test_ld : after (coreWith [0x83, 1, 1, 0x48] #v[0, 3, 0, 0, 0, 0, 0, 0xF4])
    (fun t => (t.readReg 1, t.pc)) = some (0x48, 3) := by decide
/-- M8 -/
theorem test_ld_refused : exec (.ld 0 1) { core0 with config := { defaultConfig with ldSemantics := .refuse } } =
    .refused .ldSemanticsNotInSource := by rfl
/-- M9 -/
theorem test_st : after (coreWith [0x84, 1, 0] #v[0x0A, 0, 0, 0, 0, 0, 0, 0xF4])
    (fun t => (t.readReg 1, t.mem)) = some (0x0A, [(0, 0x84), (1, 1)]) := by decide
/-- M13 -/
theorem test_prn : after (coreWith [0x47, 7] #v[0, 0, 0, 0, 0, 0, 0, 0xF4])
    (fun t => (t.out, t.pc)) = some ([⟨.dec, 244⟩], 2) := by decide
/-- M15 -/
theorem test_pra : after (coreWith [0x48, 0] #v[0, 0, 0, 0, 0, 0, 0, 0xF4])
    (fun t => t.out) = some [⟨.chr, 0x48⟩] := by decide
/-- S2 -/
theorem test_push_wraps : after (coreWith [0x45, 0] #v[0x77, 0, 0, 0, 0, 0, 0, 0])
    (fun t => (t.sp, t.readMem 0xFF, t.pc)) = some (0xFF, 0x77, 2) := by decide
/-- S3 -/
theorem test_push_r7 : after (coreWith [0x45, 7] #v[0, 0, 0, 0, 0, 0, 0, 0xF4])
    (fun t => (t.sp, t.readMem 0xF3)) = some (0xF3, 0xF4) := by decide
/-- S6 -/
theorem test_pop_r7 : after (coreWith [0x46, 7, 0x40] #v[0, 0, 0, 0, 0, 0, 0, 2])
    (fun t => (t.sp, t.pc)) = some (0x40, 2) := by decide
/-- S11 -/
theorem test_pop_underflow : after (under { defaultConfig with emptyPop := .faultAtBase }
      (coreWith [0x46, 0] #v[1, 0, 0, 0, 0, 0, 0, 0xF4]))
    (fun t => (t.readReg 0, t.sp, t.pc, t.faultCode.code)) = some (1, 0xF4, 0, 5) := by decide
/-- B12: the target is read before the push -/
theorem test_call_r7 : after (coreWith [0x50, 7] #v[0, 0, 0, 0, 0, 0, 0, 0xF4])
    (fun t => (t.sp, t.readMem 0xF3, t.pc)) = some (0xF3, 2, 0xF4) := by decide
/-- B11, the `fault` half -/
theorem test_call_range : (nextOf (exec (.call 1) (under { defaultConfig with pcOverflow := .fault }
    { core0 with pc := 0xFE, ir := 0x50 }))).map (fun t => (t.sp, t.pc, t.faultCode.code)) =
    some (0xF4, 0xFE, 4) := by decide
/-- B14 -/
theorem test_ret : after { coreWith [0x11] #v[0, 0, 0, 0, 0, 0, 0, 0xFF] with mem := [(0, 0x11), (0xFF, 0x10)] }
    (fun t => (t.pc, t.sp)) = some (0x10, 0x00) := by decide
/-- B8 -/
theorem test_jmp : after (coreWith [0x54, 2] #v[0, 0, 9, 0, 0, 0, 0, 0xF4]) (fun t => t.pc) = some 9 := by decide
/-- B1 and B2 -/
theorem test_jeq :
    after { coreWith [0x55, 2] #v[0, 0, 9, 0, 0, 0, 0, 0xF4] with fl := 1 } (fun t => t.pc) = some 9 ∧
    after { coreWith [0x55, 2] #v[0, 0, 9, 0, 0, 0, 0, 0xF4] with fl := 2 } (fun t => t.pc) = some 2 := by decide
/-- B4 and B5 -/
theorem test_jne :
    after { coreWith [0x56, 2] #v[0, 0, 9, 0, 0, 0, 0, 0xF4] with fl := 4 } (fun t => t.pc) = some 9 ∧
    after { coreWith [0x56, 2] #v[0, 0, 9, 0, 0, 0, 0, 0xF4] with fl := 1 } (fun t => t.pc) = some 2 := by decide
/-- B16 -/
theorem test_hlt : after (coreWith [0x01] #v[0, 0, 0, 0, 0, 0, 0, 0xF4])
    (fun t => (t.status, t.faultCode, t.pc)) = some (.halted, .none, 1) := by decide

/-! ### The cycle -/

/-- E1 -/
theorem test_unknown_skip1 : after core0 (fun t => (t.rep, t.pc, t.status)) = some ([⟨0, 0⟩], 1, .running) := by decide
/-- E4 and E5 -/
theorem test_unknown_generic :
    after (under { defaultConfig with unknownOpcode := .generic }
      (coreWith [0xC0] core0.x))
      (fun t => t.pc) = some 4 ∧
    after (under { defaultConfig with unknownOpcode := .generic }
      (coreWith [0x10] core0.x))
      (fun t => t.pc) = some 0 := by decide
/-- E2 -/
theorem test_unknown_strict : after (under { defaultConfig with unknownOpcode := .strict }
      core0)
    (fun t => (t.rep, t.pc, t.status, t.faultCode.code)) = some ([⟨0, 0⟩], 0, .halted, 3) := by decide
/-- E6: the register check comes before the division check -/
theorem test_priority : after (coreWith [0xA4, 9, 1] core0.x) (fun t => t.faultCode) = some .badRegister := by decide
/-- E8 -/
theorem test_operands_wrap : after { core0 with pc := 0xFF, mem := [(0, 3), (1, 7), (0xFF, 0x82)] }
    (fun t => (t.readReg 3, t.pc)) = some (7, 2) := by decide
/-- E9 -/
theorem test_operand_out_of_range : after (under { defaultConfig with pcOverflow := .fault }
      { core0 with pc := 0xFF, mem := [(0xFF, 0x82)] })
    (fun t => (t.pc, t.ir, t.faultCode.code)) = some (0xFF, 0x82, 4) := by decide
/-- E10: the instruction at the top completes, and the next fetch faults -/
theorem test_fetch_out_of_range : after (under { defaultConfig with pcOverflow := .fault }
      { core0 with pc := 0x100, ir := 0x47 })
    (fun t => (t.pc, t.ir, t.faultCode.code)) = some (0x100, 0x47, 4) := by decide
/-- E11 -/
theorem test_no_step : nextOf (step State.reset) = none ∧ nextOf (step State.reset.halt) = none := by decide

/-! ### The host -/

theorem test_boot : (match boot [0x01, 0x02] State.reset with | .done t => some (t.status, t.mem) | _ => none) =
    some (.running, [(0, 1), (1, 2)]) := by decide
theorem test_load_empty : hostAct (.load []) State.reset = .refused .emptyImage := by decide
theorem test_load_running : hostAct (.load [1]) core0 = .refused .notIdle := by decide
theorem test_withFetchWord : after (State.reset.withFetchWord 24 0x070082) (fun t => (t.readReg 0, t.pc)) =
    some (7, 3) := by decide
theorem test_withFetchWord_gated : after (State.reset.withFetchWord 8 0xA1) (fun t => (t.ir, t.pc)) =
    some (0xA1, 3) := by decide
theorem test_assembler : assemblerText (.add 0 1) = some "ADD R0, R1" ∧ assemblerText (.ldi 0 8) = some "LDI R0, 8" ∧
    assemblerText .hlt = some "HLT" ∧ assemblerText (.inc 8) = none := by decide

/-! ### Witnesses: for each statement with hypotheses, a state and operands that meet them all -/

/-- The configuration with another value of one parameter. -/
def rangeFault : Config := { defaultConfig with pcOverflow := .fault }
def mask3 : Config := { defaultConfig with regIndex := .mask3 }
def ls8 : Config := { defaultConfig with subDivDecode := .ls8 }
def atBase : Config := { defaultConfig with emptyPop := .faultAtBase }
def strict : Config := { defaultConfig with unknownOpcode := .strict }
def generic : Config := { defaultConfig with unknownOpcode := .generic }
def refuseLd : Config := { defaultConfig with ldSemantics := .refuse }

/-- The registers used below: R0 = 5, R1 = 2, R2 = 0, SP = 0xF4. -/
def regs : Vector Byte 8 := #v[5, 2, 0, 0, 0, 0, 0, 0xF4]

/-- The operand hypotheses of every statement about one instruction, at both ends of the range and under both
policies. -/
theorem witness_NamesRegister :
    NamesRegister defaultConfig 0 0 ∧ NamesRegister defaultConfig 7 7 ∧ NamesRegister mask3 7 7 ∧
    NamesRegister mask3 8 0 ∧ NamesRegister mask3 0xFF 7 := by decide
theorem witness_NamesNoRegister :
    NamesNoRegister defaultConfig 8 ∧ NamesNoRegister defaultConfig 0xFF ∧ ¬NamesNoRegister defaultConfig 7 := by
  decide
theorem witness_DecodeOfEncodeIsIdentity :
    (Instr.sub 0xFF 0).decodedUnder .ls8 = true ∧ (Instr.shr 0 0xFF).decodedUnder .off = true := by decide
theorem witness_DecodedBytesAreTheEncoding : decode .off [0x82, 0xFF, 0, 1] = .ok (.ldi 0xFF 0, [1]) := by rfl
theorem witness_LengthIsInTheOpcode :
    decode .off (0x01 :: [1]) = .ok (.hlt, [1]) ∧ decode .ls8 (0xA3 :: [1, 2]) = .ok (.div 1 2, []) := ⟨rfl, rfl⟩
theorem witness_UnknownOpcodesAreTheRest :
    (lookup .off 0xA1).isNone = true ∧ (lookup .ls8 0xA1).isSome = true := by decide
/-- at the last address, where the operands wrap -/
theorem witness_StepRunsTheDecodedInstruction :
    let s := { core0 with pc := 0xFF, mem := [(0, 3), (1, 7), (0xFF, 0x82)] }
    s.status = .running ∧ decode s.config.subDivDecode (codeAt s) = .ok (.ldi 3 7, []) := ⟨rfl, by rfl⟩
theorem witness_NoStepUnlessRunning :
    State.reset.status = .idle ∧ State.reset.halt.status = .halted ∧ (nextOf (step core0)).isSome = true := by decide
theorem witness_RunningCoreAlwaysSteps :
    (nextOf (step (under refuseLd (coreWith [0x83, 9, 1] regs)))).isSome = true ∧
    (nextOf (step (under refuseLd (coreWith [0x83, 0, 1] regs)))).isNone = true := by decide
theorem witness_UnknownOpcodeIsReported : ∀ c ∈ [defaultConfig, generic, strict],
    let s := under c { core0 with pc := 255, mem := [(255, 0xD0)] }
    s.status = .running ∧ s.pc < 256 ∧ s.mem.read s.pc = 0xD0 ∧
      (lookup s.config.subDivDecode 0xD0).isNone = true := by decide
theorem witness_FetchOutOfRangeFaults :
    let s := under rangeFault { core0 with pc := 256 }
    s.status = .running ∧ 256 ≤ s.pc := by decide
/-- the first operand out of range, and the second -/
theorem witness_OperandOutOfRangeFaults : ∀ p ∈ [0xFE, 0xFF],
    let s := under rangeFault { core0 with pc := p, mem := [(p, 0x82)] }
    s.status = .running ∧ s.config.pcOverflow = .fault ∧ s.pc < 256 ∧ s.mem.read s.pc = (Instr.ldi 0 0).opcode ∧
      (Instr.ldi 0 0).decodedUnder s.config.subDivDecode = true ∧ 256 < s.pc + (encode (.ldi 0 0)).length := by decide
theorem witness_BadRegisterFaultsFirst :
    (∃ b ∈ (Instr.mod 8 0).registerOperands, NamesNoRegister core0.config b) ∧
    (∃ b ∈ (Instr.mod 7 0xFF).registerOperands, NamesNoRegister core0.config b) := by decide
/-- without a fault, and with one -/
theorem witness_AdvancePassesTheInstruction :
    let s := { coreWith [] regs with ir := 0xA4, pc := 0xFD }
    s.ir = (Instr.mod 0 1).opcode ∧ (Instr.mod 0 1).opcode.getLsbD 4 = false ∧ s.faultCode = .none ∧
      (nextOf (exec (.mod 0 1) s)).map (fun t => (t.faultCode, t.pc)) = some (.none, 0) ∧
      (nextOf (exec (.mod 0 2) s)).map (fun t => (t.faultCode, t.pc)) = some (.divZero, 0xFD) := by decide
theorem witness_FaultsArePrecise :
    core0.faultCode = .none ∧
    after (under strict core0) (fun t => t.faultCode) = some .unknownOpcode ∧
    after (coreWith [0x65, 8] regs) (fun t => t.faultCode) = some .badRegister := by decide
/-- one step for each code -/
theorem witness_FaultCodesHaveTheirCauses :
    after (coreWith [0xA4, 0, 2] regs) (fun t => t.faultCode) = some .divZero ∧
    after (under ls8 (coreWith [0xA3, 0, 2] regs)) (fun t => t.faultCode) = some .divZero ∧
    after (coreWith [0x65, 8] regs) (fun t => t.faultCode) = some .badRegister ∧
    after (under strict core0) (fun t => t.faultCode) = some .unknownOpcode ∧
    after (under rangeFault { core0 with pc := 256 }) (fun t => t.faultCode) = some .addrRange ∧
    after (under rangeFault { core0 with pc := 255, mem := [(255, 0x50)] }) (fun t => t.faultCode) = some .addrRange ∧
    after (under rangeFault { core0 with pc := 254, mem := [(254, 0x50)] }) (fun t => (t.faultCode, t.pc)) =
      some (.addrRange, 254) ∧
    after (under atBase (coreWith [0x46, 0] regs)) (fun t => t.faultCode) = some .stackUnderflow ∧
    after (under atBase (coreWith [0x11] regs)) (fun t => t.faultCode) = some .stackUnderflow := by decide
theorem witness_OnlyHltAndFaultsHalt :
    after (coreWith [0x01] regs) (fun t => (t.status, t.faultCode)) = some (.halted, .none) ∧
    after (coreWith [0x65, 8] regs) (fun t => (t.status, t.faultCode)) = some (.halted, .badRegister) := by decide
theorem witness_OnlyCmpWritesFlags : after (coreWith [0xA7, 0, 1] regs) (fun t => t.fl) = some 2 := by decide
theorem witness_OnlyPushAndCallWriteMemory :
    (coreWith [0x45, 0] regs).readMem 0xF3 = 0 ∧
    after (coreWith [0x45, 0] regs) (fun t => t.readMem 0xF3) = some 5 ∧
    after (coreWith [0x50, 0] regs) (fun t => t.readMem 0xF3) = some 2 := by decide
theorem witness_RegistersChangeOnlyAsNamed :
    (nextOf (exec (.inc 0) (coreWith [] regs))).map (fun t => t.readReg 0) = some 6 ∧
    (nextOf (exec (.push 0) (coreWith [] regs))).map (fun t => t.readReg 7) = some 0xF3 := by decide
theorem witness_StreamsOnlyGrow :
    after (coreWith [0x47, 0] regs) (fun t => t.out) = some [⟨.dec, 5⟩] ∧
    after (coreWith [0x48, 2] regs) (fun t => t.out) = some [⟨.chr, 0x48⟩] ∧
    after core0 (fun t => t.rep) = some [⟨0, 0⟩] := by decide
theorem witness_StepKeepsConfiguration : after (under mask3 core0) (fun t => t.config) = some mask3 := by decide
/-- for JEQ with other flags than E, and for CMP -/
theorem witness_FlagsGAndLHaveNoReader :
    let s := { coreWith [0x55, 0] regs with fl := 2 }
    s.faultCode = .none ∧ (4 : Byte).getLsbD 0 = s.fl.getLsbD 0 ∧ (nextOf (step s)).isSome = true ∧
      (nextOf (step (coreWith [0xA7, 0, 1] regs))).isSome = true := by decide
theorem witness_StreamsAreNeverRead : (nextOf (step (coreWith [0x47, 0] regs))).isSome = true := by decide
theorem witness_StepKeepsTheInvariant : Machine.Inv core0 ∧ (nextOf (step core0)).isSome = true :=
  ⟨⟨by decide, by decide, by decide, by decide, by decide, by decide⟩, by decide⟩
/-- the invariant also holds where pc has left the range, under the fault policy -/
theorem witness_Inv_out_of_range : Machine.Inv (under rangeFault { core0 with pc := 259 }) :=
  ⟨by decide, by decide, by decide, by decide, by decide, by decide⟩
theorem witness_WriteChangesOnlyItsCell : core0.mem.wf = true ∧ Memory.wf [(0, 1), (255, 2)] = true := by decide
theorem witness_EqualReadsMakeEqualMemories :
    Memory.wf (Memory.write [] 9 1) = true ∧ Memory.wf [(9, 1)] = true ∧
    ∀ a, a < 256 → (Memory.write [] 9 1).read a = Memory.read [(9, 1)] a := ⟨by decide, by decide, fun _ _ => rfl⟩
/-- the shortest image and the longest, and one byte more -/
theorem witness_BootLoadsTheImage :
    (1 ≤ [(1 : Byte)].length ∧ [(1 : Byte)].length ≤ 256) ∧ (List.replicate 256 (1 : Byte)).length ≤ 256 ∧
    256 < (List.replicate 257 (1 : Byte)).length :=
  ⟨by decide, (List.length_replicate).le, List.length_replicate ▸ by decide⟩
theorem witness_HostActsOnlyAsAllowed : core0.status ≠ .idle ∧ State.reset.status = .idle := by decide
/-- both operands, at both ends of the range and under both policies; likewise below -/
theorem witness_AddWritesTheWrappedSum :
    NamesRegister core0.config 7 7 ∧ NamesRegister core0.config 0 0 ∧ NamesRegister (under mask3 core0).config 0xF8 0 ∧
    NamesRegister (under mask3 core0).config 0xFF 7 := by decide
theorem witness_SubWritesTheWrappedDifference :
    NamesRegister core0.config 7 7 ∧ NamesRegister core0.config 0 0 ∧ NamesRegister (under mask3 core0).config 0xF8 0 ∧
    NamesRegister (under mask3 core0).config 0xFF 7 := by decide
theorem witness_MulWritesTheLowProduct :
    NamesRegister core0.config 7 7 ∧ NamesRegister core0.config 0 0 ∧ NamesRegister (under mask3 core0).config 0xF8 0 ∧
    NamesRegister (under mask3 core0).config 0xFF 7 := by decide
theorem witness_CmpSetsExactlyOneFlag :
    NamesRegister core0.config 7 7 ∧ NamesRegister core0.config 0 0 ∧ NamesRegister (under mask3 core0).config 0xF8 0 ∧
    NamesRegister (under mask3 core0).config 0xFF 7 := by decide
theorem witness_BitwiseOperationsActOnEachBit :
    NamesRegister core0.config 7 7 ∧ NamesRegister core0.config 0 0 ∧ NamesRegister (under mask3 core0).config 0xF8 0 ∧
    NamesRegister (under mask3 core0).config 0xFF 7 := by decide
theorem witness_StCopiesARegister :
    NamesRegister core0.config 7 7 ∧ NamesRegister core0.config 0 0 ∧ NamesRegister (under mask3 core0).config 0xF8 0 ∧
    NamesRegister (under mask3 core0).config 0xFF 7 := by decide
theorem witness_IncAndDecWrap :
    NamesRegister core0.config 7 7 ∧ NamesRegister (under mask3 core0).config 0xFF 7 := by decide
theorem witness_NotWritesTheComplement :
    NamesRegister core0.config 7 7 ∧ NamesRegister (under mask3 core0).config 0xFF 7 := by decide
theorem witness_LdiWritesTheImmediate :
    NamesRegister core0.config 7 7 ∧ NamesRegister (under mask3 core0).config 0xFF 7 := by decide
theorem witness_LdiThenPrnPrintsTheValue :
    NamesRegister core0.config 7 7 ∧ NamesRegister (under mask3 core0).config 0xFF 7 := by decide
theorem witness_PrnEmitsTheRegister :
    NamesRegister core0.config 7 7 ∧ NamesRegister (under mask3 core0).config 0xFF 7 := by decide
theorem witness_PraEmitsTheCellPointedTo :
    NamesRegister core0.config 7 7 ∧ NamesRegister (under mask3 core0).config 0xFF 7 := by decide
/-- a divisor other than 0, and 0 -/
theorem witness_DivWritesTheQuotientOrFaults :
    let s := coreWith [] regs
    NamesRegister s.config 0 0 ∧ NamesRegister s.config 1 1 ∧ s.readReg 1 ≠ 0 ∧ NamesRegister s.config 2 2 ∧ s.readReg 2 = 0 := by
  decide
theorem witness_ModWritesTheRemainderOrFaults :
    let s := coreWith [] regs
    NamesRegister s.config 0 0 ∧ NamesRegister s.config 1 1 ∧ s.readReg 1 ≠ 0 ∧ NamesRegister s.config 2 2 ∧ s.readReg 2 = 0 := by
  decide
theorem witness_ShiftsUseTheWholeAmount :
    let s := coreWith [] #v[1, 8, 0, 0, 0, 0, 0, 0xF4]
    NamesRegister s.config 0 0 ∧ NamesRegister s.config 1 1 ∧ 8 ≤ (s.readReg 1).toNat := by decide
theorem witness_LdLoadsOrIsRefused :
    core0.config.ldSemantics = .load ∧ NamesRegister core0.config 0 0 ∧
    (under refuseLd core0).config.ldSemantics = .refuse ∧ NamesRegister (under refuseLd core0).config 0 0 := by decide
theorem witness_PushStoresBelowSp : core0.mem.wf = true ∧ NamesRegister core0.config 7 7 := by decide
/-- without an underflow by policy, and by SP; and with one, for R0 and for R7 -/
theorem witness_PopLoadsAndMovesSp :
    NamesRegister core0.config 7 7 ∧ core0.config.emptyPop = .mechanical ∧
    (under atBase (coreWith [] #v[0, 0, 0, 0, 0, 0, 0, 0xF3])).sp ≠ 0xF4 ∧
    NamesRegister (under atBase core0).config 0 0 ∧ (under atBase core0).config.emptyPop = .faultAtBase ∧
    (under atBase core0).sp = 0xF4 := by decide
theorem witness_PushThenPopMovesTheValue :
    core0.mem.wf = true ∧ NamesRegister core0.config 3 3 ∧ NamesRegister core0.config 7 7 ∧
    core0.config.emptyPop = .mechanical ∧ (under atBase core0).sp ≠ 0xF5 := by decide
/-- under `wrap` at the top; under `fault` at the last address that fits, and at the first that does not -/
theorem witness_CallPushesTheReturnAddress :
    let s := { core0 with ir := 0x50, pc := 0xFF }
    let u := under rangeFault { core0 with ir := 0x50, pc := 0xFD }
    let v := under rangeFault { core0 with ir := 0x50, pc := 0xFE }
    (s.mem.wf = true ∧ s.ir = 0b01010000 ∧ NamesRegister s.config 7 7 ∧ s.config.pcOverflow = .wrap) ∧
    (u.mem.wf = true ∧ u.ir = 0b01010000 ∧ NamesRegister u.config 1 1 ∧ u.pc + 2 < 256) ∧
    (v.mem.wf = true ∧ v.ir = 0b01010000 ∧ NamesRegister v.config 1 1 ∧ v.config.pcOverflow = .fault ∧
      256 ≤ v.pc + 2) := by decide
theorem witness_RetPopsIntoPc :
    ({ core0 with ir := 0x11 } : State).ir = 0b00010001 ∧ core0.config.emptyPop = .mechanical ∧
    (under atBase core0).config.emptyPop = .faultAtBase ∧ (under atBase core0).sp = 0xF4 := by decide
/-- the returning state is the one the CALL left, with RET fetched -/
theorem witness_CallThenRetReturns :
    let s := { core0 with ir := 0x50, pc := 3 }
    s.mem.wf = true ∧ s.ir = 0b01010000 ∧ NamesRegister s.config 1 1 ∧ s.config.pcOverflow = .wrap ∧
      s.config.emptyPop = .mechanical ∧
      (nextOf (exec (.call 1) s)).map (fun t =>
        let t' := { t with ir := 0x11 }
        (t'.config == t.config, t'.sp == t.sp, t'.readMem t.sp == t.readMem t.sp)) = some (true, true, true) := by decide
theorem witness_JmpGoesToTheRegister :
    let s := { core0 with ir := 0x54 }
    s.ir = 0b01010100 ∧ NamesRegister s.config 7 7 := by decide
theorem witness_ConditionalJumpsTestE :
    ({ core0 with ir := 0x55 } : State).ir = 0b01010101 ∧ ({ core0 with ir := 0x56 } : State).ir = 0b01010110 ∧
    NamesRegister core0.config 2 2 := by decide
/-- equal registers, and unequal ones -/
theorem witness_CmpDecidesTheJump :
    NamesRegister core0.config 0 0 ∧ NamesRegister core0.config 1 1 ∧
    (coreWith [] regs).readReg 2 = (coreWith [] regs).readReg 3 ∧
    (coreWith [] regs).readReg 0 ≠ (coreWith [] regs).readReg 1 ∧
    ((nextOf (exec (.cmp 0 1) (coreWith [] regs))).map fun t => ({ t with ir := 0x55 } : State).ir) = some 0b01010101 ∧
    ((nextOf (exec (.cmp 0 1) (coreWith [] regs))).map fun t => ({ t with ir := 0x56 } : State).ir) = some 0b01010110 := by
  decide
/-- for each action that is done -/
theorem witness_WritesAndHostActionsKeepTheInvariant :
    Machine.Inv State.reset ∧ hostAct .start State.reset = .done { State.reset with status := .running } ∧
    hostAct (.load [7]) State.reset = .done { State.reset with mem := [(0, 7)] } ∧
    Machine.Inv core0 ∧ hostAct .reset core0 = .done State.reset :=
  ⟨⟨by decide, by decide, by decide, by decide, by decide, by decide⟩, by decide, by decide,
    ⟨by decide, by decide, by decide, by decide, by decide, by decide⟩, by decide⟩
theorem witness_HltHalts : ({ core0 with ir := 0x01 } : State).ir = 0b00000001 := by decide

end Sys2Proof.Tests
end

section
/-! SUPPORT. Memory (20_memory.md): what a write to one cell changes and what it leaves as it was. -/

namespace Sys2Proof.Machine

/-- A read after a write, at any two addresses: the law of the state that joins the written cell and the others. -/
theorem State.readMem_writeMem (s : State) (a b v : Byte) (hm : s.mem.wf = true) :
    (s.writeMem a v).readMem b = if b = a then v else s.readMem b := by
  by_cases h : b = a
  · subst h
    rw [if_pos rfl, readMem_writeMem_self s b v hm]
  · rw [if_neg h, readMem_writeMem_of_ne s v h]

/-- The frame of a write outside the registers, pc, FL and the output, at any address and of any memory. -/
theorem sameControl_writeMem (s : State) (a v : Byte) : SameControl s (s.writeMem a v) where
  ir := s.writeMem_ir a v
  status := s.writeMem_status a v
  faultCode := s.writeMem_faultCode a v
  rep := s.writeMem_rep a v
  config := s.writeMem_config a v

/-- Settles O27: the cells by the read-after-write law, everything else by the frame of `State.writeMem` (R57). -/
theorem writeChangesOnlyItsCell : Obligations.WriteChangesOnlyItsCell := by
  intro s a b v hm
  have hcells := s.readMem_writeMem a b v hm
  have hregs : SameRegisters s (s.writeMem a v) := s.readReg_writeMem a v
  exact ⟨hcells, hregs, s.writeMem_pc a v, s.writeMem_fl a v, s.writeMem_out a v, sameControl_writeMem s a v⟩

end Sys2Proof.Machine
end

section
/-! SUPPORT. Encoding (30_encoding.md): what a successful decoding says about the bytes it read. -/

namespace Sys2Proof.Machine

/-- The model's operand count is the two-bit field the rule names (R80). -/
theorem operandCount_eq_extractLsb' (b : Byte) : operandCount b = (b.extractLsb' 6 2).toNat := by
  have hb := b.isLt
  simp only [operandCount, BitVec.extractLsb'_toNat, Nat.shiftRight_eq_div_pow]
  omega

/-- All that a successful decoding says: the bytes are the instruction's encoding followed by what is left over, and
the configuration decodes it. -/
theorem decode_ok {d : SubDivDecode} {opcode : Byte} {bytes rest : List Byte} {i : Instr}
    (h : decode d (opcode :: bytes) = .ok (i, rest)) :
    opcode = i.opcode ∧ bytes = i.operandBytes ++ rest ∧ i.decodedUnder d = true := by
  cases hrow : lookup d opcode with
  | none => rw [decode_unknown bytes hrow] at h; cases h
  | some row =>
    obtain ⟨j, hj, hopcode, hoperands, -, hunder⟩ | ⟨-, herr⟩ := decode_known bytes hrow
    · rw [hj] at h
      cases h
      exact ⟨hopcode.symm, by rw [hoperands, List.take_append_drop], hunder⟩
    · rw [herr] at h; cases h

/-- Settles O4: the bytes after the opcode are the operands and the rest, and every instruction has as many operands
as its opcode's bits 7:6 say, two at most (R80). -/
theorem lengthIsInTheOpcode : Obligations.LengthIsInTheOpcode := by
  intro d opcode bytes rest i h
  obtain ⟨rfl, rfl, -⟩ := decode_ok h
  rw [← operandCount_eq_extractLsb', List.length_append, operandBytes_length, Nat.add_comm]
  exact ⟨rfl, operandCount_le i⟩

end Sys2Proof.Machine
end

section
/-! SUPPORT. The ALU (41_alu.md): the value of each operation, and the next state of each shape of ALU
instruction, which is the register written and everything else left but pc. -/

namespace Sys2Proof.Machine

/-! ### The values (R141, R142) -/

@[simp] theorem toNat_wrap8 (v : Nat) : (wrap8 v).toNat = v % 256 := BitVec.toNat_ofNat v 8

theorem toNat_aluAdd (a b : Byte) : (aluAdd a b).toNat = (a.toNat + b.toNat) % 256 := toNat_wrap8 _

theorem toNat_aluMul (a b : Byte) : (aluMul a b).toNat = a.toNat * b.toNat % 256 := toNat_wrap8 _

/-- No divisor is excluded here: the fault of R147 is of the instruction, not of the value. -/
theorem toNat_aluMod (a b : Byte) : (aluMod a b).toNat = a.toNat % b.toNat := by
  have hle : a.toNat % b.toNat ≤ a.toNat := Nat.mod_le _ _
  rw [aluMod, toNat_wrap8, Nat.mod_eq_of_lt (Nat.lt_of_le_of_lt hle a.isLt)]

theorem toNat_aluInc (a : Byte) : (aluInc a).toNat = (a.toNat + 1) % 256 := toNat_wrap8 _

/-- Less one is plus 255 modulo 256. -/
theorem toNat_aluDec (a : Byte) : (aluDec a).toNat = (a.toNat + 255) % 256 := by
  rw [aluDec, State.wrap8Int_pred, BitVec.toNat_sub, Nat.add_comm]
  rfl

theorem toNat_aluNot (a : Byte) : (aluNot a).toNat = 255 - a.toNat := by
  rw [aluNot, toNat_wrap8, Nat.mod_eq_of_lt (by omega)]

/-- 255 less a byte is its complement (R156). -/
theorem aluNot_eq_not (a : Byte) : aluNot a = ~~~ a := by
  apply BitVec.eq_of_toNat_eq
  rw [toNat_aluNot, BitVec.toNat_not]

theorem getLsbD_aluAnd (a b : Byte) (k : Nat) : (aluAnd a b).getLsbD k = (a.getLsbD k && b.getLsbD k) :=
  BitVec.getLsbD_and

theorem getLsbD_aluOr (a b : Byte) (k : Nat) : (aluOr a b).getLsbD k = (a.getLsbD k || b.getLsbD k) :=
  BitVec.getLsbD_or

theorem getLsbD_aluXor (a b : Byte) (k : Nat) : (aluXor a b).getLsbD k = (a.getLsbD k ^^ b.getLsbD k) :=
  BitVec.getLsbD_xor

/-! ### The next states (R140, R159) -/

/-- The frame of a register write with the PC advance after it (R117). -/
theorem onlyRegister_writeReg_autoAdvance (s : State) (d : Reg) (v : Byte) :
    OnlyRegister d s (s.writeReg d v).autoAdvance where
  others r hr := by rw [State.readReg_autoAdvance, s.readReg_writeReg_of_ne v hr]
  fl := by simp
  memory a := by simp
  out := by simp
  control := ⟨by simp, by simp, by simp, by simp, by simp⟩

theorem readReg_writeReg_autoAdvance (s : State) (d : Reg) (v : Byte) :
    (s.writeReg d v).autoAdvance.readReg d = v := by simp

section Shapes

variable {s : State} {ra rb : Byte} {i j : Reg}

theorem aluUnary_next (f : Byte → Byte) (hi : NamesRegister s.config ra i) :
    ∃ t, aluUnary f ra s = .next t ∧ OnlyRegister i s t ∧ t.readReg i = f (s.readReg i) :=
  ⟨_, aluUnary_eq f hi, onlyRegister_writeReg_autoAdvance .., readReg_writeReg_autoAdvance ..⟩

theorem aluBinary_next (f : Byte → Byte → Byte)
    (hi : NamesRegister s.config ra i) (hj : NamesRegister s.config rb j) :
    ∃ t, aluBinary f ra rb s = .next t ∧ OnlyRegister i s t ∧ t.readReg i = f (s.readReg i) (s.readReg j) :=
  ⟨_, aluBinary_eq f hi hj, onlyRegister_writeReg_autoAdvance .., readReg_writeReg_autoAdvance ..⟩

/-- With a divisor other than 0, division and remainder are binary operations like the others. -/
theorem aluDivide_next (f : Byte → Byte → Byte)
    (hi : NamesRegister s.config ra i) (hj : NamesRegister s.config rb j) (hdiv : s.readReg j ≠ 0) :
    ∃ t, aluDivide f ra rb s = .next t ∧ OnlyRegister i s t ∧ t.readReg i = f (s.readReg i) (s.readReg j) :=
  ⟨_, (aluDivide_eq f hi hj).trans (if_neg hdiv), onlyRegister_writeReg_autoAdvance ..,
    readReg_writeReg_autoAdvance ..⟩

/-- A zero divisor is fault entry and nothing else (R147, R283). -/
theorem aluDivide_zero (f : Byte → Byte → Byte)
    (hi : NamesRegister s.config ra i) (hj : NamesRegister s.config rb j) (hdiv : s.readReg j = 0) :
    aluDivide f ra rb s = .next (s.raiseFault .divZero) :=
  (aluDivide_eq f hi hj).trans (if_pos hdiv)

end Shapes

end Sys2Proof.Machine
end

section
/-! SUPPORT. The ALU (41_alu.md): the statements about its instructions, each from the next state of the instruction's
shape and the value of its operation. -/

namespace Sys2Proof.Machine

/-- Settles O32: ADD is a binary operation, and its value is the sum modulo 256 (R144). -/
theorem addWritesTheWrappedSum : Obligations.AddWritesTheWrappedSum := by
  refine fun ra rb => ⟨rfl, fun s i j hi hj => ?_⟩
  obtain ⟨t, hnext, hframe, hval⟩ := aluBinary_next aluAdd hi hj
  exact ⟨t, hnext, hframe, by rw [hval, toNat_aluAdd]⟩

/-- Settles O34: MUL is a binary operation, and its value is the product modulo 256 (R146). -/
theorem mulWritesTheLowProduct : Obligations.MulWritesTheLowProduct := by
  refine fun ra rb => ⟨rfl, fun s i j hi hj => ?_⟩
  obtain ⟨t, hnext, hframe, hval⟩ := aluBinary_next aluMul hi hj
  exact ⟨t, hnext, hframe, by rw [hval, toNat_aluMul]⟩

/-- Settles O36, by the divisor: a remainder fits a byte (R149), and a zero divisor is fault entry, whose effect is
read off the laws of `State.raiseFault` (R147, R283). -/
theorem modWritesTheRemainderOrFaults : Obligations.ModWritesTheRemainderOrFaults := by
  refine fun ra rb => ⟨rfl, fun s i j hi hj => ⟨fun hdiv => ?_, fun hdiv => ?_⟩⟩
  · obtain ⟨t, hnext, hframe, hval⟩ := aluDivide_next aluMod hi hj hdiv
    exact ⟨t, hnext, hframe, by rw [hval, toNat_aluMod]⟩
  · exact ⟨_, aluDivide_zero aluMod hi hj hdiv, s.raiseFault_status _, s.raiseFault_faultCode _,
      s.readReg_raiseFault _, s.raiseFault_fl _, s.readMem_raiseFault _, s.raiseFault_out _, s.raiseFault_rep _⟩

/-- Settles O37: INC and DEC are unary operations, and their values wrap at both ends (R150, R151). -/
theorem incAndDecWrap : Obligations.IncAndDecWrap := by
  refine fun ra => ⟨rfl, rfl, fun s i hi => ⟨?_, ?_⟩⟩
  · obtain ⟨t, hnext, hframe, hval⟩ := aluUnary_next aluInc hi
    exact ⟨t, hnext, hframe, by rw [hval, toNat_aluInc]⟩
  · obtain ⟨t, hnext, hframe, hval⟩ := aluUnary_next aluDec hi
    exact ⟨t, hnext, hframe, by rw [hval, toNat_aluDec]⟩

/-- Settles O39: AND, OR and XOR are binary operations, and each bit of their values is the operation on that bit of
both operands (R153, R154, R155). -/
theorem bitwiseOperationsActOnEachBit : Obligations.BitwiseOperationsActOnEachBit := by
  refine fun ra rb => ⟨rfl, rfl, rfl, fun s i j hi hj => ⟨?_, ?_, ?_⟩⟩
  · obtain ⟨t, hnext, hframe, hval⟩ := aluBinary_next aluAnd hi hj
    exact ⟨t, hnext, hframe, fun k => by rw [hval, getLsbD_aluAnd]⟩
  · obtain ⟨t, hnext, hframe, hval⟩ := aluBinary_next aluOr hi hj
    exact ⟨t, hnext, hframe, fun k => by rw [hval, getLsbD_aluOr]⟩
  · obtain ⟨t, hnext, hframe, hval⟩ := aluBinary_next aluXor hi hj
    exact ⟨t, hnext, hframe, fun k => by rw [hval, getLsbD_aluXor]⟩

/-- Settles O40: NOT is a unary operation, and its value is both 255 less the operand and the complement (R156). -/
theorem notWritesTheComplement : Obligations.NotWritesTheComplement := by
  refine fun ra => ⟨rfl, fun s i hi => ?_⟩
  obtain ⟨t, hnext, hframe, hval⟩ := aluUnary_next aluNot hi
  exact ⟨t, hnext, hframe, by rw [hval, toNat_aluNot], hval.trans (aluNot_eq_not _)⟩

end Sys2Proof.Machine
end

section
/-! SUPPORT. Data movement and output (42_data_io.md): the frame of an output instruction, and the statements about
LDI, ST, PRN and PRA, each from the equation of its execute phase and the frame of what it writes. -/

namespace Sys2Proof.Machine

/-- The frame of an output event with the PC advance after it (R117). -/
theorem onlyOutput_emitOut_autoAdvance (s : State) (k : OutKind) (b : Byte) :
    OnlyOutput ⟨k, b⟩ s (s.emitOut k b).autoAdvance where
  registers r := by simp
  fl := by simp
  memory a := by simp
  out := by simp
  control := ⟨by simp, by simp, by simp, by simp, by simp⟩

/-- Settles O42: LDI writes its immediate, which is not checked, to the register its first byte names (R201). -/
theorem ldiWritesTheImmediate : Obligations.LdiWritesTheImmediate :=
  fun _ imm => ⟨rfl, fun s i hi => ⟨_, execLdi_eq hi, onlyRegister_writeReg_autoAdvance s i imm,
    readReg_writeReg_autoAdvance s i imm⟩⟩

/-- Settles O44: ST is a register write of the second register's value, with no write to memory (R204). -/
theorem stCopiesARegister : Obligations.StCopiesARegister :=
  fun _ _ => ⟨rfl, fun s i j hi hj => ⟨_, execSt_eq hi hj, onlyRegister_writeReg_autoAdvance s i (s.readReg j),
    readReg_writeReg_autoAdvance s i (s.readReg j)⟩⟩

/-- Settles O45: PRN's execute phase is one decimal event with the register's value (R206). -/
theorem prnEmitsTheRegister : Obligations.PrnEmitsTheRegister :=
  fun _ => ⟨rfl, fun s i hi => ⟨_, execPrn_eq hi, onlyOutput_emitOut_autoAdvance s .dec (s.readReg i)⟩⟩

/-- Settles O46: PRA's execute phase is one character event with the cell at the register's value (R207). -/
theorem praEmitsTheCellPointedTo : Obligations.PraEmitsTheCellPointedTo :=
  fun _ => ⟨rfl, fun s i hi =>
    ⟨_, execPra_eq hi, onlyOutput_emitOut_autoAdvance s .chr (s.readMem (s.readReg i))⟩⟩

end Sys2Proof.Machine
end

section
/-! SUPPORT. Control flow and halt (44_control.md): pc after the PC advance, the next state of every jump, and the
statements about JMP, JEQ, JNE and HLT. -/

namespace Sys2Proof.Machine

/-- The PC advance leaves pc where it is when the opcode in IR has bit 4 set, else it passes the instruction (R117). -/
theorem State.autoAdvance_pc (s : State) :
    s.autoAdvance.pc = if setsPc s.ir then s.pc else addr s.config (s.pc + 1 + operandCount s.ir) := by
  rw [autoAdvance_eq, setPc_pc]

theorem onlyPc_setPc (s : State) (p : Nat) : OnlyPc s (s.setPc p) where
  registers := s.readReg_setPc p
  fl := s.setPc_fl p
  memory := s.readMem_setPc p
  out := s.setPc_out p
  control := ⟨s.setPc_ir p, s.setPc_status p, s.setPc_faultCode p, s.setPc_rep p, s.setPc_config p⟩

theorem onlyPc_autoAdvance (s : State) : OnlyPc s s.autoAdvance := by
  rw [State.autoAdvance_eq]
  exact onlyPc_setPc s _

/-- JMP is the jump that is always taken (R252). -/
theorem execJmp_eq_jumpIf (ra : Byte) (s : State) : execJmp ra s = jumpIf true ra s := rfl

/-- With an opcode in IR that places pc itself, no PC advance follows the jump's own pc (R118). -/
theorem jumpIf_next {s : State} {ra : Byte} {i : Reg} (taken : Bool) (hir : setsPc s.ir = true)
    (hi : NamesRegister s.config ra i) :
    ∃ t, jumpIf taken ra s = .next t ∧ OnlyPc s t ∧
      t.pc = if taken then (s.readReg i).toNat else addr s.config (s.pc + 2) := by
  refine ⟨_, ?_, onlyPc_setPc s _, s.setPc_pc _⟩
  rw [jumpIf_eq hi, State.autoAdvance_of_setsPc ((s.setPc_ir _).symm ▸ hir)]

/-- Settles O54: JMP is a jump always taken, and its opcode has bit 4 set (R252). -/
theorem jmpGoesToTheRegister : Obligations.JmpGoesToTheRegister := by
  refine fun ra => ⟨rfl, fun s i hir hi => ?_⟩
  have hsets : setsPc s.ir = true := by rw [hir]; decide
  rw [exec, execJmp_eq_jumpIf]
  exact jumpIf_next true hsets hi

/-- Settles O55: JEQ is the jump on E and JNE the jump on its negation, and both opcodes have bit 4 set
(R253, R254). -/
theorem conditionalJumpsTestE : Obligations.ConditionalJumpsTestE := by
  refine fun ra => ⟨rfl, rfl, fun s i hi => ⟨fun hir => ?_, fun hir => ?_⟩⟩
  · have hsets : setsPc s.ir = true := by rw [hir]; decide
    exact jumpIf_next (flagE s.fl) hsets hi
  · have hsets : setsPc s.ir = true := by rw [hir]; decide
    obtain ⟨t, hnext, hframe, hpc⟩ := jumpIf_next (!flagE s.fl) hsets hi
    refine ⟨t, hnext, hframe, hpc.trans ?_⟩
    rw [flagE]
    cases s.fl.getLsbD 0 <;> rfl

/-- HLT's opcode has bit 4 clear and no operands, so the PC advance goes to the next byte (R120). -/
theorem halt_autoAdvance_pc {s : State} (hir : s.ir = 0b00000001) :
    s.halt.autoAdvance.pc = addr s.config (s.pc + 1) := by
  rw [State.autoAdvance_pc, State.halt_ir, hir]
  rfl

/-- Settles O57: HLT only changes the run state, and the PC advance after it only pc (R260). -/
theorem hltHalts : Obligations.HltHalts := by
  refine ⟨rfl, fun s hir => ?_⟩
  obtain ⟨hregs, hfl, hmem, hout, hkeep, hstatus, hfault, hrep, hconfig⟩ := onlyPc_autoAdvance s.halt
  exact ⟨_, rfl, hstatus, hfault, halt_autoAdvance_pc hir, hregs, hfl, hmem, hkeep, hout, hrep, hconfig⟩

end Sys2Proof.Machine
end

section
/-! SUPPORT. Encoding (30_encoding.md): the round trip in both directions, the bytes without an entry, and bit 4 of the
opcodes. -/

namespace Sys2Proof.Machine

/-- Settles O2: the opcode has an entry, and the operand bytes are exactly the ones it takes from the front, so the
decoded instruction has the same opcode and operand bytes and is the same one (R80, R87). -/
theorem decodeOfEncodeIsIdentity : Obligations.DecodeOfEncodeIsIdentity := by
  intro d i rest hunder
  have hlen := operandBytes_length i
  obtain ⟨row, hrow, -⟩ := lookup_opcode hunder
  obtain ⟨j, hj, hopcode, hoperands, -, -⟩ | ⟨hshort, -⟩ := decode_known (i.operandBytes ++ rest) hrow
  · rw [← hlen, List.take_left] at hoperands
    rw [← hlen, List.drop_left, encode_injective hopcode hoperands] at hj
    exact hj
  · rw [List.length_append, hlen] at hshort
    omega

/-- Settles O1: the six words are encodings, so they decode back, and 0xA1 has no entry when SUB is off (R87, R92). -/
theorem writtenWordsDecode : Obligations.WrittenWordsDecode := by
  have roundTrip (d : SubDivDecode) (i : Instr) (h : i.decodedUnder d = true) : decode d (encode i) = .ok (i, []) := by
    simpa using decodeOfEncodeIsIdentity d i [] h
  exact ⟨roundTrip .off .hlt rfl, roundTrip .off (.push 7) rfl, roundTrip .off (.jeq 2) rfl,
    roundTrip .off (.ldi 0 8) rfl, roundTrip .off (.add 3 5) rfl, roundTrip .ls8 (.sub 1 2) rfl,
    decode_unknown _ rfl⟩

/-- Settles O3, by the list of bytes: an empty one does not decode, and a longer one decodes only to the instruction
with its opcode and operand bytes (R89). -/
theorem decodedBytesAreTheEncoding : Obligations.DecodedBytesAreTheEncoding := by
  intro d bytes rest i h
  cases bytes with
  | nil => rw [decode_nil] at h; cases h
  | cons opcode bytes =>
    obtain ⟨rfl, rfl, hunder⟩ := decode_ok h
    exact ⟨rfl, hunder⟩

/-- Settles O5: an opcode of a decoded instruction has an entry, and an entry is some decoded instruction's
(R89, R110). -/
theorem unknownOpcodesAreTheRest : Obligations.UnknownOpcodesAreTheRest := by
  refine fun d b => ⟨fun hnone i hunder hopcode => ?_, fun hrest => ?_⟩
  · obtain ⟨row, hrow, -⟩ := lookup_opcode hunder
    rw [hopcode, hnone] at hrow
    cases hrow
  · cases hrow : lookup d b with
    | none => rfl
    | some row =>
      obtain ⟨i, hopcode, hunder⟩ := instr_of_lookup hrow
      exact absurd hopcode (hrest i hunder)

/-- Bit 4 of the opcode, in the model's own terms (R81, R87). -/
theorem setsPc_opcode_iff (i : Instr) :
    setsPc i.opcode = true ↔ i = .ret ∨ ∃ ra, i = .call ra ∨ i = .jmp ra ∨ i = .jeq ra ∨ i = .jne ra := by
  cases i <;> simp [setsPc, Instr.opcode]

/-- Settles O14: bit 4 is the bit `setsPc` tests (R81). -/
theorem onlyFiveInstructionsPlacePc : Obligations.OnlyFiveInstructionsPlacePc := setsPc_opcode_iff

/-- An encoding is one byte longer than its operands (R80). -/
theorem length_encode (i : Instr) : (encode i).length = 1 + operandCount i.opcode := by
  rw [encode, List.length_cons, operandBytes_length, Nat.add_comm]

/-- Two bits hold the number of operand bytes (R80). -/
theorem operandCount_le_three (b : Byte) : operandCount b ≤ 3 := by
  have hb := b.isLt
  unfold operandCount
  omega

end Sys2Proof.Machine
end

section
/-! SUPPORT. Invariant (10_state.md R27, R29, R34): each operation over the state keeps it, so every effect of an
instruction, every step and every action of the host does. -/

namespace Sys2Proof.Machine

/-- The model's fault entry is the state the statements call `faulted` (R283). -/
theorem faulted_eq_raiseFault (code : FaultCode) (s : State) : faulted code s = s.raiseFault code := rfl

/-! ### The operations -/

/-- What one instruction can compute as an address from a pc in range stays in the bounds of pc. -/
theorem addr_inBounds (c : Config) {v : Nat} (hv : v < 260) :
    (c.pcOverflow = .wrap → addr c v < 256) ∧ addr c v < 260 := by
  refine ⟨fun hwrap => ?_, (addr_le c v).trans_lt hv⟩
  rw [addr_wrap hwrap]
  exact Nat.mod_lt v (by decide)

namespace Inv

variable {s : State}

theorem setIr (h : Inv s) (b : Byte) : Inv (s.setIr b) :=
  ⟨h.memory, h.flags, h.pcWraps, h.pcBound, h.faultHalts, h.reports⟩

theorem writeReg (h : Inv s) (r : Reg) (v : Byte) : Inv (s.writeReg r v) :=
  ⟨h.memory, h.flags, h.pcWraps, h.pcBound, h.faultHalts, h.reports⟩

theorem emitOut (h : Inv s) (kind : OutKind) (b : Byte) : Inv (s.emitOut kind b) :=
  ⟨h.memory, h.flags, h.pcWraps, h.pcBound, h.faultHalts, h.reports⟩

theorem setFl (h : Inv s) {v : Byte} (hv : v = 0 ∨ v = 1 ∨ v = 2 ∨ v = 4) : Inv (s.setFl v) :=
  ⟨h.memory, hv, h.pcWraps, h.pcBound, h.faultHalts, h.reports⟩

theorem halt (h : Inv s) : Inv s.halt :=
  ⟨h.memory, h.flags, h.pcWraps, h.pcBound, fun _ => rfl, h.reports⟩

theorem raiseFault (h : Inv s) (code : FaultCode) : Inv (s.raiseFault code) :=
  ⟨h.memory, h.flags, h.pcWraps, h.pcBound, fun _ => rfl, h.reports⟩

theorem writeMem (h : Inv s) (a v : Byte) : Inv (s.writeMem a v) :=
  ⟨Memory.wf_write v h.memory a.isLt, h.flags, h.pcWraps, h.pcBound, h.faultHalts, h.reports⟩

theorem setPc (h : Inv s) {p : Nat} (hp : (s.config.pcOverflow = .wrap → p < 256) ∧ p < 260) : Inv (s.setPc p) :=
  ⟨h.memory, h.flags, hp.1, hp.2, h.faultHalts, h.reports⟩

theorem emitReport (h : Inv s) {b : Byte} {p : Nat} (hb : lookup s.config.subDivDecode b = none) (hp : p < 256) :
    Inv (s.emitReport b p) where
  memory := h.memory
  flags := h.flags
  pcWraps := h.pcWraps
  pcBound := h.pcBound
  faultHalts := h.faultHalts
  reports r hr := by
    rcases List.mem_append.1 hr with hold | hnew
    · exact h.reports r hold
    · rw [List.mem_singleton.1 hnew]
      exact ⟨hb, hp⟩

theorem setPc_byte (h : Inv s) (b : Byte) : Inv (s.setPc b.toNat) :=
  h.setPc ⟨fun _ => b.isLt, by omega⟩

theorem pushByte (h : Inv s) (v : Byte) : Inv (s.pushByte v) := by
  rw [State.pushByte_eq]
  exact (h.writeReg _ _).writeMem _ _

theorem bumpSp (h : Inv s) : Inv s.bumpSp := h.writeReg _ _

/-- The PC advance passes at most four bytes, so from a pc in range it stays in its bounds. -/
theorem autoAdvance (h : Inv s) (hpc : s.pc < 256) : Inv s.autoAdvance := by
  have hcount := operandCount_le_three s.ir
  rw [State.autoAdvance]
  split
  · exact h
  · exact h.setPc (addr_inBounds _ (by omega))

/-- The unknown-opcode step, under each of its policies (R116). -/
theorem unknownOpcode (h : Inv s) (hpc : s.pc < 256) (hir : lookup s.config.subDivDecode s.ir = none) :
    Inv s.unknownOpcode := by
  have hreport := h.emitReport hir hpc
  rw [State.unknownOpcode]
  split
  · exact hreport.setPc (addr_inBounds _ (by omega))
  · exact hreport.autoAdvance hpc
  · exact hreport.raiseFault _

end Inv

/-- CMP leaves a legal FL (R29, R152). -/
theorem compareFlags_legal (a b : Byte) :
    compareFlags a b = 0 ∨ compareFlags a b = 1 ∨ compareFlags a b = 2 ∨ compareFlags a b = 4 := by
  rcases compareFlags_cases a b with ⟨-, h⟩ | ⟨-, h⟩ | ⟨-, h⟩ <;> simp [h]

/-! ### Instructions and steps -/

/-- Every effect of an instruction at a pc in range keeps the invariant; a jump may leave pc past its operand, and the
opcode in IR says that no PC advance follows it. -/
theorem Effect.inv {i : Instr} {s t : State} (he : Effect i s t) (hir : s.ir = i.opcode) (hpc : s.pc < 256)
    (h : Inv s) : Inv t := by
  cases he with
  | fault code _ => exact h.raiseFault code
  | register r v => exact (h.writeReg r v).autoAdvance hpc
  | flags a b => exact (h.setFl (compareFlags_legal a b)).autoAdvance hpc
  | output kind b => exact (h.emitOut kind b).autoAdvance hpc
  | push v => exact (h.pushByte v).autoAdvance hpc
  | pop r => exact (h.bumpSp.writeReg r _).autoAdvance hpc
  | call v target => exact ((h.pushByte v).setPc_byte target).autoAdvance target.isLt
  | ret => exact (h.bumpSp.setPc_byte _).autoAdvance (BitVec.isLt _)
  | halt => exact h.halt.autoAdvance hpc
  | jump target hi htarget =>
    obtain ⟨ra, hra⟩ := hi
    have hsets : setsPc (s.setPc target).ir = true := by
      rw [State.setPc_ir, hir, setsPc_opcode_iff]
      exact .inr ⟨ra, .inr hra⟩
    rw [State.autoAdvance_of_setsPc hsets]
    rcases htarget with hlt | rfl
    · exact h.setPc ⟨fun _ => hlt, by omega⟩
    · exact h.setPc (addr_inBounds _ (by omega))

/-- Settles O26, by what a step can do: a fault before the execute phase, an unknown opcode, or the effect of the
decoded instruction. -/
theorem stepKeepsTheInvariant : Obligations.StepKeepsTheInvariant := by
  intro s t h hstep
  obtain ⟨-, ⟨-, rfl⟩ | ⟨b, hpc, -, hnone, rfl⟩ | ⟨i, -, -, -, -, -, rfl⟩ | ⟨i, hpc, -, -, -, he⟩⟩ := step_cases hstep
  · exact h.raiseFault _
  · exact (h.setIr b).unknownOpcode hpc hnone
  · exact (h.setIr _).raiseFault _
  · exact he.inv rfl hpc (h.setIr _)

/-! ### Reset and the host's actions -/

/-- The reset state meets the invariant with any parameters, which it keeps (R39). -/
theorem inv_hostReset (s : State) : Inv (hostReset s) where
  memory := rfl
  flags := .inl rfl
  pcWraps _ := (by decide : 0 < 256)
  pcBound := (by decide : 0 < 260)
  faultHalts hfault := absurd rfl hfault
  reports r hr := absurd hr List.not_mem_nil

/-- Settles O25: the state after reset is what the host's Reset leaves with the default parameters. -/
theorem resetMeetsTheInvariant : Obligations.ResetMeetsTheInvariant := inv_hostReset State.reset

/-- A Load that is done copies an image that fits into the memory of an idle core (R44). -/
theorem hostLoad_done {image : List Byte} {s t : State} (h : hostLoad image s = .done t) :
    s.status = .idle ∧ image ≠ [] ∧ image.length ≤ memSize ∧ t = { s with mem := s.mem.writeList loadBase image } := by
  unfold hostLoad at h
  split_ifs at h with hidle hempty hlong
  cases h
  exact ⟨not_not.1 hidle, hempty, not_lt.1 hlong, rfl⟩

/-- A Start that is done sets an idle core running and does nothing else (R43). -/
theorem hostStart_done {s t : State} (h : hostStart s = .done t) :
    s.status = .idle ∧ t = { s with status := .running } := by
  unfold hostStart at h
  split_ifs at h with hidle
  cases h
  exact ⟨not_not.1 hidle, rfl⟩

/-- Loading an image that fits keeps the invariant. -/
theorem Inv.writeList {s : State} (h : Inv s) {image : List Byte} (hlen : image.length ≤ memSize) :
    Inv { s with mem := s.mem.writeList loadBase image } :=
  ⟨Memory.wf_writeList image h.memory (by rwa [loadBase, Nat.zero_add]), h.flags, h.pcWraps, h.pcBound, h.faultHalts,
    h.reports⟩

/-- An idle core has no fault recorded, so it may be set running. -/
theorem Inv.start {s : State} (h : Inv s) (hidle : s.status = .idle) : Inv { s with status := .running } where
  memory := h.memory
  flags := h.flags
  pcWraps := h.pcWraps
  pcBound := h.pcBound
  faultHalts hfault := by
    have hhalted := h.faultHalts hfault
    rw [hidle] at hhalted
    cases hhalted
  reports := h.reports

/-- Settles O59: a byte is an address in range, and each action of the host that is done leaves the reset state, an
image that fits, or an idle core set running (R43, R44). -/
theorem writesAndHostActionsKeepTheInvariant : Obligations.WritesAndHostActionsKeepTheInvariant := by
  refine ⟨fun s a v hwf => Memory.wf_write v hwf a.isLt, fun act s t h hact => ?_⟩
  cases act with
  | reset =>
    cases hact
    exact inv_hostReset s
  | load image =>
    obtain ⟨-, -, hlen, rfl⟩ := hostLoad_done hact
    exact h.writeList hlen
  | start =>
    obtain ⟨hidle, rfl⟩ := hostStart_done hact
    exact h.start hidle
  | abort => cases hact

end Sys2Proof.Machine
end

section
/-! SUPPORT. Memory, reset and the host (20_memory.md; 10_state.md R39 to R44; 70_reset_and_hazards.md): equal memories,
the reset values, the host's actions and the boot order. -/

namespace Sys2Proof.Machine

/-- Settles O28: a canonical memory reads as unlisted outside its 256 cells, so the two read alike everywhere. -/
theorem equalReadsMakeEqualMemories : Obligations.EqualReadsMakeEqualMemories := by
  intro m m' hm hm' hreads
  refine Memory.ext_from hm hm' fun a _ => ?_
  by_cases ha : a < 256
  · exact hreads a ha
  · have hout : memSize ≤ a := not_lt.1 ha
    rw [Memory.read_out_of_range hm hout, Memory.read_out_of_range hm' hout]

/-- The reset register file (R39). -/
theorem readReg_reset (r : Reg) : State.reset.readReg r = if r = 7 then 0xF4 else 0 := by
  revert r; decide

/-- Settles O29: the fields of `State.reset`, and the reads of its registers and of its empty memory (R39). -/
theorem resetLeavesTheResetValues : Obligations.ResetLeavesTheResetValues :=
  ⟨readReg_reset, rfl, rfl, fun _ => rfl, rfl, rfl, rfl, rfl, rfl, rfl⟩

/-- Settles O31, by the run state: Load and Start ask for Idle, Reset and Abort for nothing (R43, R44). -/
theorem hostActsOnlyAsAllowed : Obligations.HostActsOnlyAsAllowed := by
  refine fun s image => ⟨fun hbusy => ⟨?_, ?_⟩, fun hidle => ?_, rfl, rfl⟩
  · exact if_pos hbusy
  · exact if_pos hbusy
  · exact if_neg (not_not.2 hidle)

/-! ### The boot order (R322) -/

theorem hostReset_status (s : State) : (hostReset s).status = .idle := rfl

theorem hostLoad_of_fits {image : List Byte} {s : State} (hidle : s.status = .idle) (hempty : image ≠ [])
    (hlen : image.length ≤ memSize) : hostLoad image s = .done { s with mem := s.mem.writeList loadBase image } := by
  rw [hostLoad, if_neg (not_not.2 hidle), if_neg hempty, if_neg (not_lt.2 hlen)]

theorem hostLoad_of_tooLong {image : List Byte} {s : State} (hidle : s.status = .idle)
    (hlen : memSize < image.length) : hostLoad image s = .refused .imageTooLong := by
  have hempty : image ≠ [] := List.ne_nil_of_length_pos (Nat.zero_lt_of_lt hlen)
  rw [hostLoad, if_neg (not_not.2 hidle), if_neg hempty, if_pos hlen]

/-- Load and Start after Reset of an image that Load accepts. -/
theorem boot_of_fits {image : List Byte} (hempty : image ≠ []) (hlen : image.length ≤ memSize) (s : State) :
    boot image s = .done { hostReset s with mem := Memory.writeList [] loadBase image, status := .running } := by
  rw [boot, hostLoad_of_fits (hostReset_status s) hempty hlen]
  rfl

theorem boot_of_tooLong {image : List Byte} (hlen : memSize < image.length) (s : State) :
    boot image s = .refused .imageTooLong := by
  rw [boot, hostLoad_of_tooLong (hostReset_status s) hlen]

/-- The reset memory after the load: the image from address 0 on, and 0 elsewhere (R39, R44). -/
theorem read_loaded {image : List Byte} (hlen : image.length ≤ memSize) (a : Nat) :
    Memory.read (Memory.writeList [] loadBase image) a = image.getD a 0 := by
  rw [loadBase, Memory.read_writeList 0 a image rfl (by rwa [Nat.zero_add])]
  by_cases ha : a < image.length
  · rw [if_pos ⟨Nat.zero_le a, by omega⟩, Nat.sub_zero]
  · rw [if_neg (by omega), List.getD_eq_default _ _ (not_lt.1 ha)]
    rfl

/-- Settles O30, by the length of the image: one that fits is loaded into the reset state and the core started, and
Load refuses the others (R322). -/
theorem bootLoadsTheImage : Obligations.BootLoadsTheImage := by
  refine fun s image => ⟨fun ⟨hpos, hlen⟩ => ?_, fun hempty => ?_, fun hlong => boot_of_tooLong hlong s⟩
  · have hempty : image ≠ [] := List.ne_nil_of_length_pos hpos
    exact ⟨_, boot_of_fits hempty hlen s, ((inv_hostReset s).writeList hlen).start rfl, rfl, rfl, rfl, rfl, rfl, rfl,
      rfl, rfl, readReg_reset, fun a => read_loaded hlen a.toNat⟩
  · rw [hempty]
    rfl

/-! ### The fault codes (60_exceptions.md R281) -/

/-- The code with a 3-bit number; nothing writes 6 and 7, which stand for no code here. -/
def FaultCode.ofCode (n : BitVec 3) : FaultCode :=
  match n.toNat with
  | 1 => .divZero
  | 2 => .badRegister
  | 3 => .unknownOpcode
  | 4 => .addrRange
  | 5 => .stackUnderflow
  | _ => .none

theorem FaultCode.ofCode_code (c : FaultCode) : FaultCode.ofCode c.code = c := by
  cases c <;> rfl

/-- Settles O58: the numbers as written, and a number gives its code back (R281). -/
theorem faultCodesHaveTheirNumbers : Obligations.FaultCodesHaveTheirNumbers :=
  ⟨rfl, rfl, rfl, rfl, rfl, rfl, fun _ _ h => Function.LeftInverse.injective FaultCode.ofCode_code h⟩

end Sys2Proof.Machine
end

section
/-! SUPPORT. The cycle (40_execution_cycle.md): what a step of a running core is, in each case of its front, and what
every instruction answers. -/

namespace Sys2Proof.Machine

/-! ### The step of a running core (R119) -/

/-- How a step goes on after its front. -/
def Fetched.result : Fetched → Result
  | .ended t => .next t
  | .instr i t => exec i t

theorem step_eq_result {s : State} (hrun : s.status = .running) : step s = (fetch s).result := by
  rw [step, hrun]
  cases fetch s <;> rfl

/-- All that a step of a running core can be, one case for each way its front can end. -/
theorem step_of_running {s : State} (hrun : s.status = .running) : ∃ f, FetchCase s f ∧ step s = f.result :=
  ⟨fetch s, fetch_cases s, step_eq_result hrun⟩

/-- Settles O7: in the other two run states the step answers a named stop, so a next state comes from Running (R111). -/
theorem noStepUnlessRunning : Obligations.NoStepUnlessRunning := by
  refine ⟨fun s hidle => ?_, fun s hhalted => ?_, fun s t hstep => (step_cases hstep).1⟩
  · rw [step, hidle]
  · rw [step, hhalted]

/-! ### The instruction at pc -/

theorem codeAt_of_le {s : State} (h : 256 ≤ s.pc) : codeAt s = [] := by
  simp [codeAt, not_lt.2 h]

theorem head?_codeAt {s : State} (h : s.pc < 256) : (codeAt s).head? = some (s.mem.read s.pc) := by
  rw [codeAt_eq h, List.head?_cons]

/-- Under `fault` the code at pc ends with address 255. -/
theorem codeAt_length_of_fault {s : State} (hfault : s.config.pcOverflow = .fault) (hpc : s.pc < 256) :
    s.pc + (codeAt s).length ≤ 256 := by
  rw [codeAt, List.length_map, addr_fault hfault, addr_fault hfault]
  by_cases h1 : s.pc + 1 < 256
  · by_cases h2 : s.pc + 2 < 256
    · simp [hpc, h1, h2]
      omega
    · simp [hpc, h1, h2]
      omega
  · simp [hpc, h1]

/-- The bytes at pc decode to one instruction at most. -/
theorem instrAt_unique {s : State} {i j : Instr} (hi : InstrAt s i) (hj : InstrAt s j) : i = j := by
  obtain ⟨rest, hi⟩ := hi
  obtain ⟨rest', hj⟩ := hj
  rw [hi] at hj
  cases hj
  rfl

/-- An instruction's bytes are the first ones at pc. -/
theorem codeAt_of_instrAt {s : State} {i : Instr} (h : InstrAt s i) : ∃ rest, codeAt s = encode i ++ rest := by
  obtain ⟨rest, h⟩ := h
  exact ⟨rest, (decodedBytesAreTheEncoding _ _ _ _ h).1⟩

/-- An instruction at pc is at an address of the memory, and the byte there is its opcode. -/
theorem opcode_of_instrAt {s : State} {i : Instr} (h : InstrAt s i) : s.pc < 256 ∧ s.mem.read s.pc = i.opcode := by
  obtain ⟨rest, hcode⟩ := codeAt_of_instrAt h
  rcases lt_or_ge s.pc 256 with hpc | hpc
  · rw [codeAt_eq hpc, encode, List.cons_append, List.cons_eq_cons] at hcode
    exact ⟨hpc, hcode.1⟩
  · rw [codeAt_of_le hpc] at hcode
    simp [encode] at hcode

/-- Under `fault` an instruction's bytes are decoded only if they end by address 255. -/
theorem instrAt_length_of_fault {s : State} {i : Instr} (h : InstrAt s i) (hfault : s.config.pcOverflow = .fault) :
    s.pc + (encode i).length ≤ 256 := by
  have hend := codeAt_length_of_fault hfault (opcode_of_instrAt h).1
  obtain ⟨rest, hcode⟩ := codeAt_of_instrAt h
  rw [hcode, List.length_append] at hend
  omega

/-- Instructions with the same opcode are equally long (R80). -/
theorem length_encode_congr {i j : Instr} (h : i.opcode = j.opcode) : (encode i).length = (encode j).length := by
  rw [length_encode, length_encode, h]

/-- The opcode of an instruction the configuration decodes is no byte without an entry. -/
theorem lookup_opcode_ne_none {d : SubDivDecode} {i : Instr} (h : i.decodedUnder d = true) :
    lookup d i.opcode ≠ none := fun hnone => (unknownOpcodesAreTheRest d i.opcode).1 hnone i h rfl

/-- Settles O6: of the four ends of the front only the decoded one agrees with the bytes at pc, and one instruction at
most stands there (R113, R114, R119). -/
theorem stepRunsTheDecodedInstruction : Obligations.StepRunsTheDecodedInstruction := by
  intro s i rest hrun hdecode
  have hi : InstrAt s i := ⟨rest, hdecode⟩
  have hunder := (decodedBytesAreTheEncoding _ _ _ _ hdecode).2
  obtain ⟨hpc, hopcode⟩ := opcode_of_instrAt hi
  obtain ⟨f, hf, hstep⟩ := step_of_running hrun
  cases hf with
  | pcOut hout => exact absurd hpc (not_lt.2 hout)
  | unknown _ b hb hnone =>
    rw [← hb, hopcode] at hnone
    exact absurd hnone (lookup_opcode_ne_none hunder)
  | operandOut _ j hj _ hfault hlong =>
    have hlen := length_encode_congr (hj.symm.trans hopcode)
    have hend := instrAt_length_of_fault hi hfault
    omega
  | decoded _ j _ _ hj =>
    obtain rfl := instrAt_unique hi hj
    exact hstep

/-! ### The ends of the front before the execute phase -/

/-- Settles O10: the other three ends of the front have pc in range (R112). -/
theorem fetchOutOfRangeFaults : Obligations.FetchOutOfRangeFaults := by
  intro s hrun hout
  obtain ⟨f, hf, hstep⟩ := step_of_running hrun
  cases hf with
  | pcOut => exact hstep
  | unknown hpc => omega
  | operandOut hpc => omega
  | decoded hpc => omega

/-- Settles O11: pc is in range, the opcode has an entry, and under `fault` no instruction with that opcode is decoded
so near the end of the memory (R114). -/
theorem operandOutOfRangeFaults : Obligations.OperandOutOfRangeFaults := by
  intro s i hrun hfault hpc hopcode hunder hlong
  obtain ⟨f, hf, hstep⟩ := step_of_running hrun
  cases hf with
  | pcOut hout => omega
  | unknown _ b hb hnone =>
    rw [← hb, hopcode] at hnone
    exact absurd hnone (lookup_opcode_ne_none hunder)
  | operandOut _ j hj =>
    rw [← hj, hopcode] at hstep
    exact hstep
  | decoded _ j hj _ hat =>
    have hlen := length_encode_congr (hj.symm.trans hopcode)
    have hend := instrAt_length_of_fault hat hfault
    omega

/-- A byte without an entry at pc ends the step as unknown (R116). -/
theorem step_of_unknown {s : State} {b : Byte} (hrun : s.status = .running) (hpc : s.pc < 256)
    (hb : s.mem.read s.pc = b) (hnone : lookup s.config.subDivDecode b = none) :
    step s = .next (s.setIr b).unknownOpcode := by
  obtain ⟨f, hf, hstep⟩ := step_of_running hrun
  cases hf with
  | pcOut hout => omega
  | unknown _ c hc =>
    obtain rfl := hb.symm.trans hc
    exact hstep
  | operandOut _ j hj hunder | decoded _ j hj hunder =>
    rw [← hb, hj] at hnone
    exact absurd hnone (lookup_opcode_ne_none hunder)

section Policies

variable {s : State}

theorem State.unknownOpcode_of_skip1 (h : s.config.unknownOpcode = .skip1) :
    s.unknownOpcode = (s.emitReport s.ir s.pc).setPc (addr s.config (s.pc + 1)) := by
  rw [unknownOpcode, h]

theorem State.unknownOpcode_of_generic (h : s.config.unknownOpcode = .generic) :
    s.unknownOpcode = (s.emitReport s.ir s.pc).autoAdvance := by
  rw [unknownOpcode, h]

theorem State.unknownOpcode_of_strict (h : s.config.unknownOpcode = .strict) :
    s.unknownOpcode = (s.emitReport s.ir s.pc).raiseFault .unknownOpcode := by
  rw [unknownOpcode, h]

end Policies

/-- Settles O9: the step is the unknown-opcode step with the byte in IR; its frame does not depend on the policy, and
the policy's own equation says the rest (R116). -/
theorem unknownOpcodeIsReported : Obligations.UnknownOpcodeIsReported := by
  intro s b hrun hpc hb hnone
  refine ⟨_, step_of_unknown hrun hpc hb hnone, by simp, by simp, ?_, by simp, ?_, by simp, by simp, ?_, ?_, ?_⟩
  · intro r
    simp [State.readReg]
  · intro a
    simp [State.readMem]
  · intro hskip
    rw [State.unknownOpcode_of_skip1 (s := s.setIr b) hskip]
    exact ⟨rfl, hrun, rfl⟩
  · intro hgeneric
    rw [State.unknownOpcode_of_generic (s := s.setIr b) hgeneric]
    refine ⟨?_, by simpa using hrun, by simp⟩
    rw [State.autoAdvance_pc, ← operandCount_eq_extractLsb']
    rfl
  · intro hstrict
    rw [State.unknownOpcode_of_strict (s := s.setIr b) hstrict]
    exact ⟨rfl, rfl, rfl⟩

/-! ### What every instruction answers -/

section Answers

variable {s : State} {ra rb : Byte}

/-- A checked register operand has a next state where the execute phase does. -/
theorem withReg_next {body : Reg → Result} (h : ∀ i, ∃ t, body i = .next t) : ∃ t, withReg ra s body = .next t := by
  rcases withReg_cases ra s body with ⟨-, hbad⟩ | ⟨i, -, hok⟩
  · exact ⟨_, hbad⟩
  · rw [hok]
    exact h i

theorem withRegs_next {body : Reg → Reg → Result} (h : ∀ i j, ∃ t, body i j = .next t) :
    ∃ t, withRegs ra rb s body = .next t :=
  withReg_next fun i => withReg_next (h i)

theorem aluUnary_answers (f : Byte → Byte) : ∃ t, aluUnary f ra s = .next t :=
  withReg_next fun _ => ⟨_, rfl⟩

theorem aluBinary_answers (f : Byte → Byte → Byte) : ∃ t, aluBinary f ra rb s = .next t :=
  withRegs_next fun _ _ => ⟨_, rfl⟩

theorem aluDivide_answers (f : Byte → Byte → Byte) : ∃ t, aluDivide f ra rb s = .next t := by
  refine withRegs_next fun i j => ?_
  split
  · exact ⟨_, rfl⟩
  · exact ⟨_, rfl⟩

theorem jumpIf_answers (taken : Bool) : ∃ t, jumpIf taken ra s = .next t :=
  withReg_next fun _ => ⟨_, rfl⟩

/-- LD is the one instruction that can be refused, and only after its register check (R203). -/
theorem execLd_answers :
    (∃ t, execLd ra rb s = .next t) ∨
      (s.config.ldSemantics = .refuse ∧ execLd ra rb s = .refused .ldSemanticsNotInSource) := by
  rw [execLd]
  cases hld : s.config.ldSemantics with
  | load => exact .inl (withRegs_next fun _ _ => ⟨_, rfl⟩)
  | refuse =>
    rcases withRegs_cases ra rb s fun _ _ => .refused .ldSemanticsNotInSource with ⟨-, hbad⟩ | ⟨_, _, -, -, hok⟩
    · exact .inl ⟨_, hbad⟩
    · exact .inr ⟨rfl, hok⟩

end Answers

/-- Every instruction has a next state, unless it is an LD that is given no meaning (R203). -/
theorem exec_answers (i : Instr) (s : State) :
    (∃ t, exec i s = .next t) ∨
      (s.config.ldSemantics = .refuse ∧ i.opcode = 0x83 ∧ exec i s = .refused .ldSemanticsNotInSource) := by
  cases i with
  | hlt => exact .inl ⟨_, rfl⟩
  | ret =>
    rw [exec, execRet]
    split
    · exact .inl ⟨_, rfl⟩
    · exact .inl ⟨_, rfl⟩
  | pop ra =>
    refine .inl (withReg_next fun i => ?_)
    split
    · exact ⟨_, rfl⟩
    · exact ⟨_, rfl⟩
  | call ra =>
    refine .inl (withReg_next fun i => ?_)
    split
    · exact ⟨_, rfl⟩
    · exact ⟨_, rfl⟩
  | push | prn | pra | ldi | jmp => exact .inl (withReg_next fun _ => ⟨_, rfl⟩)
  | jeq | jne => exact .inl (jumpIf_answers _)
  | inc | dec | not => exact .inl (aluUnary_answers _)
  | st | cmp => exact .inl (withRegs_next fun _ _ => ⟨_, rfl⟩)
  | add | mul | and | or | xor | shl | shr | sub => exact .inl (aluBinary_answers _)
  | mod | div => exact .inl (aluDivide_answers _)
  | ld ra rb =>
    rcases execLd_answers (s := s) (ra := ra) (rb := rb) with hnext | ⟨hrefuse, hrefused⟩
    · exact .inl hnext
    · exact .inr ⟨hrefuse, rfl, hrefused⟩

/-- Settles O8: a front that ends the step gives a next state, and a decoded instruction answers what it answers from
the state with its opcode in IR, which is the byte at pc (R119). -/
theorem runningCoreAlwaysSteps : Obligations.RunningCoreAlwaysSteps := by
  intro s hrun
  obtain ⟨f, hf, hstep⟩ := step_of_running hrun
  cases hf with
  | pcOut | unknown | operandOut => exact .inl ⟨_, hstep⟩
  | decoded hpc i hopcode =>
    rcases exec_answers i (s.setIr i.opcode) with ⟨t, hnext⟩ | ⟨hrefuse, hld, hrefused⟩
    · exact .inl ⟨t, hstep.trans hnext⟩
    · exact .inr ⟨hrefuse, by rw [head?_codeAt hpc, hopcode, hld], hstep.trans hrefused⟩

/-! ### The register operand check (R115) -/

theorem withReg_of_namesNone {ra : Byte} {s : State} {body : Reg → Result}
    (h : ∃ b ∈ [ra], NamesNoRegister s.config b) : withReg ra s body = .next (faulted .badRegister s) := by
  obtain ⟨b, hb, hbad⟩ := h
  obtain rfl := List.mem_singleton.1 hb
  exact withReg_of_none body (regIndex_eq_none.2 hbad)

/-- Either operand byte of two faults alike, so it does not matter which is checked first. -/
theorem withRegs_of_namesNone {ra rb : Byte} {s : State} {body : Reg → Reg → Result}
    (h : ∃ b ∈ [ra, rb], NamesNoRegister s.config b) : withRegs ra rb s body = .next (faulted .badRegister s) := by
  rcases withRegs_cases ra rb s body with ⟨-, hbad⟩ | ⟨i, j, hi, hj, -⟩
  · exact hbad
  · obtain ⟨b, hb, hnone⟩ := h
    replace hnone := regIndex_eq_none.2 hnone
    rcases List.mem_pair.1 hb with rfl | rfl
    · rw [hi] at hnone
      cases hnone
    · rw [hj] at hnone
      cases hnone

/-- Settles O12, by the number of register operands: HLT and RET have none, and every other meaning starts with the
check of its one or two. -/
theorem badRegisterFaultsFirst : Obligations.BadRegisterFaultsFirst := by
  intro i s h
  cases i with
  | hlt | ret =>
    obtain ⟨b, hb, -⟩ := h
    cases hb
  | push | pop | prn | pra | call | jmp | jeq | jne | inc | dec | not | ldi => exact withReg_of_namesNone h
  | ld | st | add | mul | mod | cmp | and | or | xor | shl | shr | sub | div => exact withRegs_of_namesNone h

end Sys2Proof.Machine
end

section
/-! SUPPORT. Safety: what each effect of an instruction leaves as it was, read off `Effect` once per field, and the
statements about every step that follow from it. -/

namespace Sys2Proof.Machine

/-! ### What an effect leaves -/

theorem State.readReg_bumpSp (s : State) {r : Reg} (h : r ≠ spIndex) : s.bumpSp.readReg r = s.readReg r := by
  rw [bumpSp_eq, readReg_writeReg_of_ne _ _ h]

section Frames

variable {i : Instr} {s t : State}

theorem Effect.ir (he : Effect i s t) : t.ir = s.ir := by
  cases he <;> simp [faulted_eq_raiseFault]

theorem Effect.rep (he : Effect i s t) : t.rep = s.rep := by
  cases he <;> simp [faulted_eq_raiseFault]

theorem Effect.config (he : Effect i s t) : t.config = s.config := by
  cases he <;> simp [faulted_eq_raiseFault]

/-- FL is written by CMP alone (R30). -/
theorem Effect.fl (he : Effect i s t) : t.fl = s.fl ∨ ∃ ra rb, i = .cmp ra rb := by
  cases he with
  | flags _ _ hi => exact .inr hi
  | fault => exact .inl rfl
  | register | output | push | pop | call | ret | jump | halt => exact .inl (by simp)

/-- The output gains one event at most, by PRN or PRA (R45). -/
theorem Effect.out (he : Effect i s t) :
    t.out = s.out ∨ ∃ e, t.out = s.out ++ [e] ∧
      ((e.kind = .dec ∧ ∃ ra, i = .prn ra) ∨ (e.kind = .chr ∧ ∃ ra, i = .pra ra)) := by
  cases he with
  | output kind b hi => exact .inr ⟨⟨kind, b⟩, by simp, hi⟩
  | fault => exact .inl rfl
  | register | flags | push | pop | call | ret | jump | halt => exact .inl (by simp)

/-- Memory is written by PUSH and CALL alone, in the cell below SP (R51). -/
theorem Effect.readMem (he : Effect i s t) {a : Byte} (ha : t.readMem a ≠ s.readMem a) :
    (∃ ra, i = .push ra ∨ i = .call ra) ∧ a = s.sp - 1 := by
  cases he with
  | push v hi =>
    obtain ⟨ra, rfl⟩ := hi
    refine ⟨⟨ra, .inl rfl⟩, by_contra fun hne => ha ?_⟩
    rw [State.readMem_autoAdvance, State.readMem_pushByte_of_ne _ _ hne]
  | call v target hi =>
    obtain ⟨ra, rfl⟩ := hi
    refine ⟨⟨ra, .inr rfl⟩, by_contra fun hne => ha ?_⟩
    rw [State.readMem_autoAdvance, State.readMem_setPc, State.readMem_pushByte_of_ne _ _ hne]
  | fault => exact absurd rfl ha
  | register | flags | output | pop | ret | jump | halt => simp [State.readMem] at ha

/-- Registers are written as the destination of the first operand, or as SP by the stack (R26). -/
theorem Effect.readReg (he : Effect i s t) {r : Reg} (hr : t.readReg r ≠ s.readReg r) :
    (i.writesFirstOperand = true ∧ ∃ b, i.registerOperands.head? = some b ∧ NamesRegister s.config b r) ∨
      (i.usesStack = true ∧ r = spIndex) := by
  cases he with
  | register d v hi _ hd =>
    obtain rfl : r = d := by_contra fun hne => hr (by simp [State.readReg_writeReg_of_ne _ _ hne])
    exact .inl ⟨hi, hd⟩
  | push v hi =>
    obtain ⟨ra, rfl⟩ := hi
    exact .inr ⟨rfl, by_contra fun hne => hr (by simp [State.readReg_pushByte _ _ hne])⟩
  | call v target hi =>
    obtain ⟨ra, rfl⟩ := hi
    exact .inr ⟨rfl, by_contra fun hne => hr (by simp [State.readReg_pushByte _ _ hne])⟩
  | ret hi =>
    subst hi
    exact .inr ⟨rfl, by_contra fun hne => hr (by simp [State.readReg_bumpSp _ hne])⟩
  | pop d hi =>
    obtain ⟨ra, rfl, hd⟩ := hi
    by_cases hrd : r = d
    · exact .inl ⟨rfl, ra, rfl, hrd ▸ hd⟩
    · refine .inr ⟨rfl, by_contra fun hne => hr ?_⟩
      simp [State.readReg_writeReg_of_ne _ _ hrd, State.readReg_bumpSp _ hne]
  | fault => exact absurd rfl hr
  | flags | output | jump | halt => simp at hr

/-- The ends of an instruction: a fault with its cause, or no fault, and then the run state stays but for HLT. -/
theorem Effect.ends (he : Effect i s t) :
    (∃ code, FaultCause i s code ∧ t = faulted code s) ∨
      (t.faultCode = s.faultCode ∧ (t.status = s.status ∨ (i = .hlt ∧ t.status = .halted))) := by
  cases he with
  | fault code cause => exact .inl ⟨code, cause, rfl⟩
  | halt hi => exact .inr ⟨by simp, .inr ⟨hi, by simp⟩⟩
  | register | flags | output | push | pop | call | ret | jump => exact .inr ⟨by simp, .inl (by simp)⟩

/-- With an opcode that does not place pc in IR, pc is past the instruction unless it faults (R117). -/
theorem Effect.pc (he : Effect i s t) (hir : s.ir = i.opcode) (hsets : setsPc i.opcode = false) :
    (∃ code, FaultCause i s code ∧ t = faulted code s) ∨
      (t.faultCode = s.faultCode ∧ t.pc = addr s.config (s.pc + (encode i).length)) := by
  have hlen : s.pc + (encode i).length = s.pc + 1 + operandCount i.opcode := by
    rw [length_encode]
    omega
  have hplaces : ¬ (i = .ret ∨ ∃ ra, i = .call ra ∨ i = .jmp ra ∨ i = .jeq ra ∨ i = .jne ra) := by
    rw [← setsPc_opcode_iff, hsets]
    exact Bool.false_ne_true
  cases he with
  | fault code cause => exact .inl ⟨code, cause, rfl⟩
  | register | flags | output | push | pop | halt =>
    exact .inr ⟨by simp, by simp [State.autoAdvance_pc, hir, hsets, hlen]⟩
  | call v target hi =>
    obtain ⟨ra, hra⟩ := hi
    exact absurd (.inr ⟨ra, .inl hra⟩) hplaces
  | ret hi => exact absurd (.inl hi) hplaces
  | jump target hi =>
    obtain ⟨ra, hra⟩ := hi
    exact absurd (.inr ⟨ra, .inr hra⟩) hplaces

end Frames

/-- No cause is for the code that records no fault. -/
theorem FaultCause.code_ne_none {i : Instr} {s : State} {code : FaultCode} (h : FaultCause i s code) :
    code ≠ .none := by
  cases h <;> simp

/-- Settles O20: the effect's own frame of the registers (R26). -/
theorem registersChangeOnlyAsNamed : Obligations.RegistersChangeOnlyAsNamed :=
  fun _ _ _ _ hexec hr => (exec_effect hexec).readReg hr

/-- Settles O13, by the two ends of an instruction whose opcode has bit 4 clear: it faults where it stands, or the
PC advance passes it (R117, R283). -/
theorem advancePassesTheInstruction : Obligations.AdvancePassesTheInstruction := by
  intro i s t hir hbit hnone hexec
  rcases (exec_effect hexec).pc hir hbit with ⟨code, cause, rfl⟩ | ⟨hkept, hpc⟩
  · exact ⟨fun hcode => absurd hcode cause.code_ne_none, fun _ => rfl⟩
  · refine ⟨fun _ => ⟨hpc, fun hwrap => ?_, fun hfault => ?_⟩, fun hcode => absurd (hkept.trans hnone) hcode⟩
    · rw [hpc, addr_wrap hwrap]
    · rw [hpc, addr_fault hfault]

/-! ### What a step leaves -/

/-- The ends of the unknown-opcode step: a fault under `strict`, else no fault and the run state as before (R116). -/
theorem State.unknownOpcode_ends (s : State) :
    (s.config.unknownOpcode = .strict ∧
        s.unknownOpcode = (s.emitReport s.ir s.pc).raiseFault .unknownOpcode) ∨
      (s.unknownOpcode.faultCode = s.faultCode ∧ s.unknownOpcode.status = s.status) := by
  cases hp : s.config.unknownOpcode with
  | strict => exact .inl ⟨rfl, unknownOpcode_of_strict hp⟩
  | skip1 =>
    rw [unknownOpcode_of_skip1 hp]
    exact .inr ⟨rfl, rfl⟩
  | generic =>
    rw [unknownOpcode_of_generic hp]
    exact .inr ⟨by simp, by simp⟩

/-- Settles O22: no fault, no unknown-opcode step and no effect changes the configuration. -/
theorem stepKeepsConfiguration : Obligations.StepKeepsConfiguration := by
  intro s t hstep
  obtain ⟨-, ⟨-, rfl⟩ | ⟨b, -, -, -, rfl⟩ | ⟨i, -, -, -, -, -, rfl⟩ | ⟨i, -, -, -, -, he⟩⟩ := step_cases hstep
  · rfl
  · simp
  · rfl
  · exact he.config

/-- Settles O18: only the effect of a decoded instruction can change FL, and IR then holds its opcode (R30). -/
theorem onlyCmpWritesFlags : Obligations.OnlyCmpWritesFlags := by
  intro s t hstep hfl
  obtain ⟨-, ⟨-, rfl⟩ | ⟨b, -, -, -, rfl⟩ | ⟨i, -, -, -, -, -, rfl⟩ | ⟨i, -, -, -, -, he⟩⟩ := step_cases hstep
  · exact absurd rfl hfl
  · simp at hfl
  · exact absurd rfl hfl
  · obtain ⟨ra, rb, rfl⟩ := he.fl.resolve_left hfl
    exact he.ir

/-- Settles O19: only the effect of a decoded instruction can change a cell, and IR then holds its opcode (R51). -/
theorem onlyPushAndCallWriteMemory : Obligations.OnlyPushAndCallWriteMemory := by
  intro s t a hstep ha
  obtain ⟨-, ⟨-, rfl⟩ | ⟨b, -, -, -, rfl⟩ | ⟨i, -, -, -, -, -, rfl⟩ | ⟨i, -, -, -, -, he⟩⟩ := step_cases hstep
  · exact absurd rfl ha
  · simp [State.readMem] at ha
  · exact absurd rfl ha
  · obtain ⟨⟨ra, rfl | rfl⟩, hcell⟩ := he.readMem ha
    · exact ⟨.inl he.ir, hcell⟩
    · exact ⟨.inr he.ir, hcell⟩

/-- Settles O21: a fault appends nothing, an unknown opcode its report, and an instruction at most its event
(R35, R45, R47). -/
theorem streamsOnlyGrow : Obligations.StreamsOnlyGrow := by
  intro s t hstep
  obtain ⟨-, ⟨-, rfl⟩ | ⟨b, -, -, hnone, rfl⟩ | ⟨i, -, -, -, -, -, rfl⟩ | ⟨i, -, -, -, -, he⟩⟩ := step_cases hstep
  · exact ⟨.inl rfl, .inl rfl⟩
  · exact ⟨.inl (by simp), .inr ⟨by simp, by simpa using hnone⟩⟩
  · exact ⟨.inl rfl, .inl rfl⟩
  · refine ⟨?_, .inl he.rep⟩
    rcases he.out with hsame | ⟨e, hout, ⟨hkind, ra, rfl⟩ | ⟨hkind, ra, rfl⟩⟩
    · exact .inl hsame
    · exact .inr ⟨e, hout, .inl ⟨hkind, he.ir⟩⟩
    · exact .inr ⟨e, hout, .inr ⟨hkind, he.ir⟩⟩

/-! ### Faults (60_exceptions.md) -/

/-- All that a step that records a fault can be: where the fault comes from, and the state it leaves. -/
inductive FaultOrigin (s : State) : State → Prop where
  /-- the fetch is out of range -/
  | pcOut (hpc : 256 ≤ s.pc) : FaultOrigin s (faulted .addrRange s)
  /-- the opcode has no entry, under the strict policy -/
  | unknown (b : Byte) (hpc : s.pc < 256) (hb : s.mem.read s.pc = b)
      (hnone : lookup s.config.subDivDecode b = none) (hstrict : s.config.unknownOpcode = .strict) :
      FaultOrigin s (((s.setIr b).emitReport b s.pc).raiseFault .unknownOpcode)
  /-- an operand byte is out of range -/
  | operandOut (i : Instr) (hpc : s.pc < 256) (hopcode : s.mem.read s.pc = i.opcode)
      (hunder : i.decodedUnder s.config.subDivDecode = true) (hfault : s.config.pcOverflow = .fault)
      (hlong : 256 < s.pc + (encode i).length) : FaultOrigin s (faulted .addrRange (s.setIr i.opcode))
  /-- the check or the execute phase of an instruction faults -/
  | execute (i : Instr) (code : FaultCode) (hpc : s.pc < 256) (hopcode : s.mem.read s.pc = i.opcode)
      (hunder : i.decodedUnder s.config.subDivDecode = true) (hat : InstrAt s i)
      (cause : FaultCause i (s.setIr i.opcode) code) : FaultOrigin s (faulted code (s.setIr i.opcode))

/-- All that a step from a state with no fault recorded can do to the fault record and the run state: record a fault,
or leave the record, and then the run state too but for HLT. -/
theorem step_ends {s t : State} (hnone : s.faultCode = .none) (hstep : step s = .next t) :
    FaultOrigin s t ∨ (t.faultCode = .none ∧ (t.status = .running ∨ (t.status = .halted ∧ t.ir = 0x01))) := by
  obtain ⟨hrun, ⟨hpc, rfl⟩ | ⟨b, hpc, hb, hl, rfl⟩ | ⟨i, hpc, hi, hunder, hfault, hlong, rfl⟩ |
    ⟨i, hpc, hi, hunder, hat, he⟩⟩ := step_cases hstep
  · exact .inl (.pcOut hpc)
  · rcases (s.setIr b).unknownOpcode_ends with ⟨hstrict, heq⟩ | ⟨hcode, hstatus⟩
    · rw [heq]
      exact .inl (.unknown b hpc hb hl hstrict)
    · exact .inr ⟨hcode.trans hnone, .inl (hstatus.trans hrun)⟩
  · exact .inl (.operandOut i hpc hi hunder hfault hlong)
  · rcases he.ends with ⟨code, cause, rfl⟩ | ⟨hcode, hstatus | ⟨rfl, hstatus⟩⟩
    · exact .inl (.execute i code hpc hi hunder hat cause)
    · exact .inr ⟨hcode.trans hnone, .inl (hstatus.trans hrun)⟩
    · exact .inr ⟨hcode.trans hnone, .inr ⟨hstatus, he.ir⟩⟩

theorem step_fault_origin {s t : State} (hnone : s.faultCode = .none) (hstep : step s = .next t)
    (hfault : t.faultCode ≠ .none) : FaultOrigin s t := by
  rcases step_ends hnone hstep with horigin | ⟨hcode, -⟩
  · exact horigin
  · exact absurd hcode hfault

/-- Every origin leaves the core halted with a fault recorded (R283). -/
theorem FaultOrigin.faultHalt {s t : State} (h : FaultOrigin s t) : FaultHalt t := by
  cases h with
  | pcOut | unknown | operandOut => exact ⟨rfl, by simp [faulted]⟩
  | execute i code _ _ _ _ cause => exact ⟨rfl, cause.code_ne_none⟩

/-- Settles O17, by the ends of a step (R121, R260). -/
theorem onlyHltAndFaultsHalt : Obligations.OnlyHltAndFaultsHalt := by
  intro s t hnone hstep hstopped
  rcases step_ends hnone hstep with horigin | ⟨hcode, hrun | ⟨hhalted, hir⟩⟩
  · exact .inr horigin.faultHalt
  · exact absurd hrun hstopped
  · exact .inl ⟨⟨hhalted, hcode⟩, hir⟩

/-- Settles O15: each origin's state differs from the one before in the run state, the fault record, the report of the
strict policy, and IR where the fetch was in range (R283). -/
theorem faultsArePrecise : Obligations.FaultsArePrecise := by
  intro s t hnone hstep hfault
  cases step_fault_origin hnone hstep hfault with
  | pcOut => exact ⟨rfl, rfl, rfl, rfl, rfl, rfl, .inl rfl, .inl rfl⟩
  | unknown b hpc hb =>
    refine ⟨rfl, rfl, rfl, rfl, rfl, rfl, .inr ⟨rfl, rfl⟩, .inr ?_⟩
    rw [head?_codeAt hpc, hb]
    rfl
  | operandOut i hpc hopcode | execute i _ hpc hopcode =>
    refine ⟨rfl, rfl, rfl, rfl, rfl, rfl, .inl rfl, .inr ?_⟩
    rw [head?_codeAt hpc, hopcode]
    rfl

/-- The row of the table of codes (R281) for a fault that the step from `s` to `t` records. -/
def TableCause (s t : State) : FaultCode → Prop
  | .none => False
  | .divZero => ∃ ra rb j, (InstrAt s (.mod ra rb) ∨ InstrAt s (.div ra rb) ∧ s.config.subDivDecode = .ls8) ∧
      NamesRegister s.config rb j ∧ s.readReg j = 0
  | .badRegister => s.config.regIndex = .fault ∧ ∃ i, InstrAt s i ∧ ∃ b ∈ i.registerOperands, 8 ≤ b.toNat
  | .unknownOpcode => s.config.unknownOpcode = .strict ∧ t.ir = s.mem.read s.pc ∧
      lookup s.config.subDivDecode t.ir = none
  | .addrRange => 256 ≤ s.pc ∨ s.config.pcOverflow = .fault ∧
      ((∃ i : Instr, s.mem.read s.pc = i.opcode ∧ i.decodedUnder s.config.subDivDecode = true ∧
          256 < s.pc + (encode i).length) ∨
        ∃ ra, InstrAt s (.call ra) ∧ 256 ≤ s.pc + 2)
  | .stackUnderflow => s.config.emptyPop = .faultAtBase ∧ s.sp = 0xF4 ∧
      (InstrAt s .ret ∨ ∃ ra, InstrAt s (.pop ra))

/-- The cause of a fault of the instruction at pc is the table's row for it. -/
theorem FaultCause.tableCause {s : State} (t : State) {i : Instr} {code : FaultCode} (hat : InstrAt s i)
    (hunder : i.decodedUnder s.config.subDivDecode = true) (h : FaultCause i (s.setIr i.opcode) code) :
    TableCause s t code := by
  cases h with
  | badRegister h =>
    obtain ⟨b, hb, hpolicy, hlarge⟩ := h
    exact ⟨hpolicy, i, hat, b, hb, hlarge⟩
  | divZero h =>
    obtain ⟨ra, rb, j, rfl | rfl, hj, hzero⟩ := h
    · exact ⟨ra, rb, j, .inl hat, hj, hzero⟩
    · exact ⟨ra, rb, j, .inr ⟨hat, eq_of_beq hunder⟩, hj, hzero⟩
  | stackUnderflow hpolicy hsp h =>
    rcases h with rfl | ⟨ra, rfl⟩
    · exact ⟨hpolicy, hsp, .inl hat⟩
    · exact ⟨hpolicy, hsp, .inr ⟨ra, hat⟩⟩
  | addrRange hpolicy h hreturn =>
    obtain ⟨ra, rfl⟩ := h
    exact .inr ⟨hpolicy, .inr ⟨ra, hat, hreturn⟩⟩

/-- Every origin of a fault is a row of the table. -/
theorem FaultOrigin.tableCause {s t : State} (h : FaultOrigin s t) : TableCause s t t.faultCode := by
  cases h with
  | pcOut hpc => exact .inl hpc
  | unknown b _ hb hnone hstrict => exact ⟨hstrict, hb.symm, hnone⟩
  | operandOut i _ hopcode hunder hfault hlong => exact .inr ⟨hfault, .inl ⟨i, hopcode, hunder, hlong⟩⟩
  | execute i code _ _ hunder hat cause => exact cause.tableCause _ hat hunder

/-- Settles O16: a fault recorded has an origin, and its code's row of the table holds (R281, R284). -/
theorem faultCodesHaveTheirCauses : Obligations.FaultCodesHaveTheirCauses := by
  intro s t hnone hstep
  have hrow {code : FaultCode} (hcode : t.faultCode = code) (hfault : code ≠ .none) : TableCause s t code := by
    subst hcode
    exact (step_fault_origin hnone hstep hfault).tableCause
  exact ⟨fun h => hrow h nofun, fun h => hrow h nofun, fun h => hrow h nofun, fun h => hrow h nofun,
    fun h => hrow h nofun⟩

end Sys2Proof.Machine
end

section
/-! SUPPORT. Single instructions (41_alu.md to 44_control.md): SUB, DIV, CMP, the shifts and LD, the stack, CALL and
RET, and what two of them do in a row. -/

namespace Sys2Proof.Machine

/-! ### The ALU -/

/-- The byte congruent to an exact integer modulo 256 (R11). -/
theorem toNat_wrap8Int (v : Int) : ((wrap8Int v).toNat : Int) = v % 256 := by
  rw [wrap8Int, BitVec.toNat_ofInt, Int.toNat_of_nonneg (Int.emod_nonneg v (by decide))]
  rfl

/-- A quotient fits a byte (R148). -/
theorem toNat_aluDiv (a b : Byte) : (aluDiv a b).toNat = a.toNat / b.toNat := by
  rw [aluDiv, toNat_wrap8, Nat.mod_eq_of_lt ((Nat.div_le_self _ _).trans_lt a.isLt)]

theorem aluShl_eq_shiftLeft (a b : Byte) : aluShl a b = a <<< b.toNat := by
  apply BitVec.eq_of_toNat_eq
  rw [aluShl, toNat_wrap8, BitVec.toNat_shiftLeft, Nat.shiftLeft_eq]

theorem aluShr_eq_shiftRight (a b : Byte) : aluShr a b = a >>> b.toNat := by
  apply BitVec.eq_of_toNat_eq
  rw [aluShr, toNat_wrap8, BitVec.toNat_ushiftRight, Nat.shiftRight_eq_div_pow,
    Nat.mod_eq_of_lt ((Nat.div_le_self _ _).trans_lt a.isLt)]

/-- Settles O33: SUB is a binary operation, and its value is the difference modulo 256 (R145). -/
theorem subWritesTheWrappedDifference : Obligations.SubWritesTheWrappedDifference := by
  refine fun ra rb => ⟨rfl, fun s i j hi hj => ?_⟩
  obtain ⟨t, hnext, hframe, hval⟩ := aluBinary_next aluSub hi hj
  exact ⟨t, hnext, hframe, by rw [hval, aluSub, toNat_wrap8Int]⟩

/-- Settles O35, by the divisor: the floor quotient, or fault entry (R147, R148). -/
theorem divWritesTheQuotientOrFaults : Obligations.DivWritesTheQuotientOrFaults := by
  refine fun ra rb => ⟨rfl, fun s i j hi hj => ⟨fun hdiv => ?_, fun hdiv => aluDivide_zero aluDiv hi hj hdiv⟩⟩
  obtain ⟨t, hnext, hframe, hval⟩ := aluDivide_next aluDiv hi hj hdiv
  exact ⟨t, hnext, hframe, by rw [hval, toNat_aluDiv]⟩

/-- Settles O41: the shifts are binary operations with the library's shifts as values, and a shift by the width or more
leaves no bit (R157, R158). -/
theorem shiftsUseTheWholeAmount : Obligations.ShiftsUseTheWholeAmount := by
  refine fun ra rb => ⟨rfl, rfl, fun s i j hi hj => ⟨?_, ?_⟩⟩
  · obtain ⟨t, hnext, hframe, hval⟩ := aluBinary_next aluShl hi hj
    rw [aluShl_eq_shiftLeft] at hval
    exact ⟨t, hnext, hframe, hval, fun hwide => hval.trans (BitVec.shiftLeft_eq_zero hwide)⟩
  · obtain ⟨t, hnext, hframe, hval⟩ := aluBinary_next aluShr hi hj
    rw [aluShr_eq_shiftRight] at hval
    exact ⟨t, hnext, hframe, hval, fun hwide => hval.trans (BitVec.ushiftRight_eq_zero hwide)⟩

/-! ### CMP -/

/-- The frame of a write to FL with the PC advance after it (R117). -/
theorem onlyFlags_setFl_autoAdvance (s : State) (v : Byte) : OnlyFlags s (s.setFl v).autoAdvance where
  registers r := by simp
  memory a := by simp
  out := by simp
  control := ⟨by simp, by simp, by simp, by simp, by simp⟩

/-- The next state of CMP: FL is the comparison, and nothing else changes but pc (R152). -/
theorem execCmp_next {s : State} {ra rb : Byte} {i j : Reg} (hi : NamesRegister s.config ra i)
    (hj : NamesRegister s.config rb j) :
    ∃ t, execCmp ra rb s = .next t ∧ OnlyFlags s t ∧ t.fl = compareFlags (s.readReg i) (s.readReg j) :=
  ⟨_, execCmp_eq hi hj, onlyFlags_setFl_autoAdvance s _, State.autoAdvance_fl _⟩

/-- The bits of FL from 3 on are 0 where its value is below 8. -/
theorem getLsbD_eq_false_of_lt_eight {b : Byte} (hb : b.toNat < 8) {k : Nat} (hk : 3 ≤ k) : b.getLsbD k = false :=
  Nat.testBit_lt_two_pow (hb.trans_le (Nat.pow_le_pow_right Nat.two_pos hk))

/-- Settles O38, by the three outcomes of a comparison: each leaves the one bit its name says (R152). -/
theorem cmpSetsExactlyOneFlag : Obligations.CmpSetsExactlyOneFlag := by
  refine fun ra rb => ⟨rfl, fun s i j hi hj => ?_⟩
  obtain ⟨t, hnext, hframe, hfl⟩ := execCmp_next hi hj
  refine ⟨t, hnext, hframe, ?_⟩
  rw [hfl]
  rcases compareFlags_cases (s.readReg i) (s.readReg j) with ⟨hcmp, hflags⟩ | ⟨hcmp, hflags⟩ | ⟨hcmp, hflags⟩ <;>
    rw [hflags]
  · exact ⟨iff_of_true rfl hcmp, iff_of_false (by decide) (by omega), iff_of_false (by decide) (by omega),
      fun _ => getLsbD_eq_false_of_lt_eight (by decide)⟩
  · exact ⟨iff_of_false (by decide) (by omega), iff_of_true rfl hcmp, iff_of_false (by decide) (by omega),
      fun _ => getLsbD_eq_false_of_lt_eight (by decide)⟩
  · exact ⟨iff_of_false (by decide) (by omega), iff_of_false (by decide) (by omega), iff_of_true rfl hcmp,
      fun _ => getLsbD_eq_false_of_lt_eight (by decide)⟩

/-- Settles O56: FL's E bit says whether the compared registers were equal, and the jumps test that bit
(R152, R253, R254). -/
theorem cmpDecidesTheJump : Obligations.CmpDecidesTheJump := by
  intro ra rb rc s i j k hi hj hk
  obtain ⟨t, hnext, hframe, hequal, -, -, -⟩ := (cmpSetsExactlyOneFlag ra rb).2 s i j hi hj
  refine ⟨t, hnext, fun t' hfl hconfig => ?_⟩
  have hE : t'.fl.getLsbD 0 = true ↔ s.readReg i = s.readReg j := by
    rw [hfl, hequal, BitVec.toNat_inj]
  have hk' : NamesRegister t'.config rc k := by rwa [hconfig, hframe.control.config]
  obtain ⟨-, -, hjumps⟩ := conditionalJumpsTestE rc
  obtain ⟨hjeq, hjne⟩ := hjumps t' k hk'
  refine ⟨fun hir => ?_, fun hir => ?_⟩
  · obtain ⟨u, hu, -, hpc⟩ := hjeq hir
    exact ⟨u, hu, by simp only [hpc, hE]⟩
  · obtain ⟨u, hu, -, hpc⟩ := hjne hir
    exact ⟨u, hu, by simp only [hpc, hE, ne_eq, ite_not]⟩

/-! ### Data movement and output -/

/-- Settles O43, by LD_SEMANTICS: LD is a register write of the cell the second register points to, or is refused
(R202, R203). -/
theorem ldLoadsOrIsRefused : Obligations.LdLoadsOrIsRefused := by
  refine fun ra rb => ⟨rfl, fun s i j hi hj => ⟨fun hload => ?_, fun hrefuse => ?_⟩⟩
  · refine ⟨_, (execLd_eq hi hj).trans ?_, onlyRegister_writeReg_autoAdvance s i (s.readMem (s.readReg j)),
      readReg_writeReg_autoAdvance s i _⟩
    rw [hload]
  · refine (execLd_eq hi hj).trans ?_
    rw [hrefuse]

/-- Settles O47: PRN emits the register LDI has written, after an output that LDI has left (R201, R206). -/
theorem ldiThenPrnPrintsTheValue : Obligations.LdiThenPrnPrintsTheValue := by
  intro ra v s i hi
  obtain ⟨t, hldi, hwrite, hval⟩ := (ldiWritesTheImmediate ra v).2 s i hi
  have hi' : NamesRegister t.config ra i := by rwa [hwrite.control.config]
  obtain ⟨u, hprn, hemit⟩ := (prnEmitsTheRegister ra).2 t i hi'
  exact ⟨t, u, hldi, hprn, by rw [hemit.out, hwrite.out, hval]⟩

/-! ### The stack (43_stack.md) -/

theorem toNat_pred (b : Byte) : (b - 1).toNat = (b.toNat + 255) % 256 := by
  rw [BitVec.toNat_sub, Nat.add_comm]
  rfl

theorem toNat_succ (b : Byte) : (b + 1).toNat = (b.toNat + 1) % 256 := BitVec.toNat_add b 1

/-- The frame of a push with pc placed anywhere after it. -/
theorem onlySpAndCell_pushByte_setPc (s : State) (v : Byte) (p : Nat) :
    OnlySpAndCell (s.sp - 1) s ((s.pushByte v).setPc p) where
  others r hr := by rw [State.readReg_setPc, s.readReg_pushByte v hr]
  cells a ha := by rw [State.readMem_setPc, s.readMem_pushByte_of_ne v ha]
  fl := rfl
  out := rfl
  control := ⟨rfl, rfl, rfl, rfl, rfl⟩

/-- A push with pc placed anywhere after it: SP is one lower modulo 256, and points to the byte pushed. -/
theorem sp_readMem_pushByte_setPc {s : State} (v : Byte) (p : Nat) (hm : s.mem.wf = true) :
    ((s.pushByte v).setPc p).sp.toNat = (s.sp.toNat + 255) % 256 ∧
      ((s.pushByte v).setPc p).readMem ((s.pushByte v).setPc p).sp = v := by
  rw [State.sp_setPc, State.readMem_setPc, State.sp_pushByte, toNat_pred, s.readMem_pushByte_self v hm]
  exact ⟨rfl, rfl⟩

/-- Settles O48: PUSH is a push of the register's value, and the PC advance after it changes only pc (R232). -/
theorem pushStoresBelowSp : Obligations.PushStoresBelowSp := by
  refine fun ra => ⟨rfl, fun s i hm hi => ⟨_, execPush_eq hi, ?_⟩⟩
  rw [State.autoAdvance_eq]
  exact ⟨onlySpAndCell_pushByte_setPc s _ _, sp_readMem_pushByte_setPc _ _ hm⟩

theorem sp_bumpSp_writeReg {s : State} {i : Reg} (v : Byte) (hi : i ≠ spIndex) :
    (s.bumpSp.writeReg i v).sp = s.sp + 1 := by
  rw [State.sp, State.readReg_writeReg_of_ne _ _ hi.symm]
  exact s.sp_bumpSp

/-- Settles O49, by the underflow check: the register write comes after SP is moved, or the check faults
(R233 to R235). -/
theorem popLoadsAndMovesSp : Obligations.PopLoadsAndMovesSp := by
  refine fun ra => ⟨rfl, fun s i hi => ⟨fun hpops => ?_, fun hpolicy hbase => ?_⟩⟩
  · have hcheck := stackUnderflows_eq_false.2 hpops
    refine ⟨_, (execPop_eq hi).trans (if_neg (by rw [hcheck]; decide)), by simp [State.popByte], fun hne => ?_,
      fun r hr hsp => ?_, by simp, fun a => by simp [State.readMem], by simp,
      ⟨by simp, by simp, by simp, by simp, by simp⟩⟩
    · rw [State.sp_autoAdvance, sp_bumpSp_writeReg _ hne, toNat_succ]
    · rw [State.readReg_autoAdvance, State.readReg_writeReg_of_ne _ _ hr, s.readReg_bumpSp hsp]
  · exact (execPop_eq hi).trans (if_pos (stackUnderflows_iff.2 ⟨hpolicy, hbase⟩))

/-- A push leaves SP at the base only from one above it (R235). -/
theorem pushed_ne_base {b c : Byte} (hb : b ≠ 0xF5) (hc : c.toNat = (b.toNat + 255) % 256) : c ≠ 0xF4 := by
  rintro rfl
  refine hb (BitVec.eq_of_toNat_eq ?_)
  have hlt := b.isLt
  change 0xF4 = _ at hc
  change _ = 0xF5
  omega

/-- SP is put back by a pop after a push. -/
theorem eq_of_pushed_of_popped {b c e : Byte} (hc : c.toNat = (b.toNat + 255) % 256)
    (he : e.toNat = (c.toNat + 1) % 256) : e = b := by
  have hlt := b.isLt
  exact BitVec.eq_of_toNat_eq (by omega)

/-- Settles O50: the POP finds the byte that the PUSH stored, and SP is moved down and up by one (R237). -/
theorem pushThenPopMovesTheValue : Obligations.PushThenPopMovesTheValue := by
  intro ra rb s i j hm hi hj hbase
  obtain ⟨t, hpush, hframe, hsp, hcell⟩ := (pushStoresBelowSp ra).2 s i hm hi
  have hconfig := hframe.control.config
  have hpops : t.config.emptyPop = .mechanical ∨ t.sp ≠ 0xF4 := by
    rw [hconfig]
    exact hbase.imp_right fun hne => pushed_ne_base hne hsp
  obtain ⟨u, hpop, hval, hback, -⟩ := ((popLoadsAndMovesSp rb).2 t j (by rwa [hconfig])).1 hpops
  exact ⟨t, u, hpush, hpop, hval.trans hcell, fun hne => eq_of_pushed_of_popped hsp (hback hne)⟩

/-! ### CALL and RET (44_control.md) -/

/-- Settles O51, by the return address: the push of it and the jump, with an opcode in IR that places pc, or the fault
before any write (R250). -/
theorem callPushesTheReturnAddress : Obligations.CallPushesTheReturnAddress := by
  refine fun ra => ⟨rfl, fun s i hm hir hi => ⟨fun hfits => ?_, fun hpolicy hlong => ?_⟩⟩
  · have hno : ¬ (s.config.pcOverflow = .fault ∧ 256 ≤ s.pc + 2) := by
      rintro ⟨hpolicy, hlong⟩
      rcases hfits with hwrap | hlt
      · rw [hwrap] at hpolicy
        cases hpolicy
      · omega
    have hsets : setsPc s.ir = true := by rw [hir]; decide
    obtain ⟨hsp, hcell⟩ := sp_readMem_pushByte_setPc (wrap8 (s.pc + 2)) (s.readReg i).toNat hm
    refine ⟨_, (execCall_eq hi).trans ?_, onlySpAndCell_pushByte_setPc s (wrap8 (s.pc + 2)) (s.readReg i).toNat, hsp,
      by rw [hcell, toNat_wrap8], rfl⟩
    rw [if_neg hno]
    exact congrArg _ (State.autoAdvance_of_setsPc hsets)
  · exact (execCall_eq hi).trans (if_pos ⟨hpolicy, hlong⟩)

/-- The frame of moving SP up, with pc placed anywhere after it. -/
theorem onlyRegister_bumpSp_setPc (s : State) (p : Nat) : OnlyRegister spIndex s (s.bumpSp.setPc p) where
  others r hr := by rw [State.readReg_setPc, s.readReg_bumpSp hr]
  fl := rfl
  memory a := rfl
  out := rfl
  control := ⟨rfl, rfl, rfl, rfl, rfl⟩

/-- Settles O52, by the underflow check: pc and SP, with an opcode in IR that places pc, or the fault (R251, R235). -/
theorem retPopsIntoPc : Obligations.RetPopsIntoPc := by
  refine ⟨rfl, fun s hir => ⟨fun hpops => ?_, fun hpolicy hbase => ?_⟩⟩
  · have hcheck := stackUnderflows_eq_false.2 hpops
    have hsets : setsPc s.ir = true := by rw [hir]; decide
    refine ⟨s.bumpSp.setPc s.popByte.toNat, ?_, onlyRegister_bumpSp_setPc s _, ?_, rfl⟩
    · rw [exec, execRet, if_neg (by rw [hcheck]; decide), complete]
      exact congrArg _ (State.autoAdvance_of_setsPc hsets)
    · rw [State.sp_setPc, State.sp_bumpSp, toNat_succ]
  · exact if_pos (stackUnderflows_iff.2 ⟨hpolicy, hbase⟩)

/-- Settles O53: the RET finds the return address in the cell below the CALL's SP, and moves SP back up (R257). -/
theorem callThenRetReturns : Obligations.CallThenRetReturns := by
  intro ra s i hm hir hi hfits hbase
  obtain ⟨t, hcall, hframe, hsp, hcell, -⟩ := ((callPushesTheReturnAddress ra).2 s i hm hir hi).1 hfits
  refine ⟨t, hcall, fun t' hir' hconfig hsp' hcell' => ?_⟩
  have hpops : t'.config.emptyPop = .mechanical ∨ t'.sp ≠ 0xF4 := by
    rw [hconfig, hframe.control.config, hsp']
    exact hbase.imp_right fun hne => pushed_ne_base hne hsp
  obtain ⟨u, hret, -, hback, hpc⟩ := (retPopsIntoPc.2 t' hir').1 hpops
  rw [hsp'] at hback hpc
  exact ⟨u, hret, by rw [hpc, hcell', hcell], eq_of_pushed_of_popped hsp hback⟩

end Sys2Proof.Machine
end

section
/-! SUPPORT. Noninterference (10_state.md R31, R35): what no step reads. A change of FL that keeps E, and of what stood
in the streams before, is carried through the fetch and through every meaning. -/

namespace Sys2Proof.Machine

/-- Another value for FL, computed from its own, and events and reports put before those of the streams. -/
def State.overlay (g : Byte → Byte) (o : List OutEvent) (r : List Report) (s : State) : State :=
  { s with fl := g s.fl, out := o ++ s.out, rep := r ++ s.rep }

section Overlay

variable {g : Byte → Byte} {o : List OutEvent} {r : List Report} {s : State} {ra rb : Byte}

/-! ### The cycle's parts -/

theorem overlay_config (s : State) : (s.overlay g o r).config = s.config := rfl

theorem autoAdvance_overlay (s : State) : (s.overlay g o r).autoAdvance = s.autoAdvance.overlay g o r := by
  rw [State.autoAdvance_eq, State.autoAdvance_eq]
  rfl

/-- An execute phase that reads no more than the two states share ends alike on both. -/
theorem complete_overlay {t u : State} (h : u = t.overlay g o r) :
    complete u = mapNext (State.overlay g o r) (complete t) := by
  rw [h, complete, autoAdvance_overlay]
  rfl

theorem failWith_overlay (code : FaultCode) (s : State) :
    failWith code (s.overlay g o r) = mapNext (State.overlay g o r) (failWith code s) := rfl

/-- An output event goes to the end, so it does not matter what stands before. -/
theorem emitOut_overlay (kind : OutKind) (b : Byte) (s : State) :
    (s.overlay g o r).emitOut kind b = (s.emitOut kind b).overlay g o r := by
  simp [State.overlay, State.emitOut]

/-- FL is overwritten alike by a value that the change leaves. -/
theorem setFl_overlay {v : Byte} (hv : g v = v) (s : State) :
    (s.overlay g o r).setFl v = (s.setFl v).overlay g o r := by
  simp [State.overlay, State.setFl, hv]

theorem emitReport_overlay (b : Byte) (p : Nat) (s : State) :
    (s.overlay g o r).emitReport b p = (s.emitReport b p).overlay g o r := by
  simp [State.overlay, State.emitReport]

theorem unknownOpcode_overlay (s : State) : (s.overlay g o r).unknownOpcode = s.unknownOpcode.overlay g o r := by
  rw [State.unknownOpcode, State.unknownOpcode, emitReport_overlay, overlay_config]
  cases s.config.unknownOpcode with
  | skip1 => rfl
  | generic => exact autoAdvance_overlay _
  | strict => rfl

/-! ### The shapes of an execute phase -/

theorem ite_mapNext {c : Prop} [Decidable c] {f : State → State} {a b a' b' : Result} (ha : a' = mapNext f a)
    (hb : b' = mapNext f b) : (if c then a' else b') = mapNext f (if c then a else b) := by
  rw [apply_ite (mapNext f), ha, hb]

theorem withReg_overlay {body body' : Reg → Result} (h : ∀ i, body' i = mapNext (State.overlay g o r) (body i)) :
    withReg ra (s.overlay g o r) body' = mapNext (State.overlay g o r) (withReg ra s body) :=
  withReg_mapNext rfl rfl h

theorem withRegs_overlay {body body' : Reg → Reg → Result}
    (h : ∀ i j, body' i j = mapNext (State.overlay g o r) (body i j)) :
    withRegs ra rb (s.overlay g o r) body' = mapNext (State.overlay g o r) (withRegs ra rb s body) :=
  withReg_overlay fun i => withReg_overlay (h i)

theorem aluUnary_overlay (f : Byte → Byte) :
    aluUnary f ra (s.overlay g o r) = mapNext (State.overlay g o r) (aluUnary f ra s) :=
  withReg_overlay fun _ => complete_overlay rfl

theorem aluBinary_overlay (f : Byte → Byte → Byte) :
    aluBinary f ra rb (s.overlay g o r) = mapNext (State.overlay g o r) (aluBinary f ra rb s) :=
  withRegs_overlay fun _ _ => complete_overlay rfl

theorem aluDivide_overlay (f : Byte → Byte → Byte) :
    aluDivide f ra rb (s.overlay g o r) = mapNext (State.overlay g o r) (aluDivide f ra rb s) :=
  withRegs_overlay fun _ _ => ite_mapNext (failWith_overlay _ s) (complete_overlay rfl)

theorem jumpIf_overlay (taken : Bool) :
    jumpIf taken ra (s.overlay g o r) = mapNext (State.overlay g o r) (jumpIf taken ra s) :=
  withReg_overlay fun _ => complete_overlay rfl

theorem execLd_overlay : execLd ra rb (s.overlay g o r) = mapNext (State.overlay g o r) (execLd ra rb s) := by
  rw [execLd, execLd, overlay_config]
  cases s.config.ldSemantics with
  | load => exact withRegs_overlay fun _ _ => complete_overlay rfl
  | refuse => exact withRegs_overlay fun _ _ => rfl

/-- Only the E bit of FL is read, by the two jumps (R31); and the change of FL commutes with CMP, which writes FL, only
where it changes nothing. -/
theorem exec_overlay (i : Instr) (hE : flagE (g s.fl) = flagE s.fl)
    (hcmp : (∃ ra rb, i = .cmp ra rb) → ∀ v, g v = v) :
    exec i (s.overlay g o r) = mapNext (State.overlay g o r) (exec i s) := by
  cases i with
  | hlt => exact complete_overlay rfl
  | ret => exact ite_mapNext (failWith_overlay _ s) (complete_overlay rfl)
  | pop => exact withReg_overlay fun _ => ite_mapNext (failWith_overlay _ s) (complete_overlay rfl)
  | call => exact withReg_overlay fun _ => ite_mapNext (failWith_overlay _ s) (complete_overlay rfl)
  | prn | pra => exact withReg_overlay fun _ => complete_overlay (emitOut_overlay _ _ s)
  | push | ldi | jmp => exact withReg_overlay fun _ => complete_overlay rfl
  | jeq | jne =>
    simp only [exec, execJeq, execJne]
    rw [show flagE (s.overlay g o r).fl = flagE s.fl from hE]
    exact jumpIf_overlay _
  | cmp ra rb => exact withRegs_overlay fun _ _ => complete_overlay (setFl_overlay (hcmp ⟨ra, rb, rfl⟩ _) s)
  | inc | dec | not => exact aluUnary_overlay _
  | st => exact withRegs_overlay fun _ _ => complete_overlay rfl
  | add | mul | and | or | xor | shl | shr | sub => exact aluBinary_overlay _
  | mod | div => exact aluDivide_overlay _
  | ld => exact execLd_overlay

/-! ### The step -/

/-- The front of a step with its state changed. -/
def Fetched.mapState (f : State → State) : Fetched → Fetched
  | .instr i t => .instr i (f t)
  | .ended t => .ended (f t)

theorem fetch_overlay (s : State) : fetch (s.overlay g o r) = (fetch s).mapState (State.overlay g o r) := by
  have hbytes : fetchBytes (s.overlay g o r) = fetchBytes s := fetchBytes_congr rfl rfl rfl
  rw [fetch, fetch, hbytes, overlay_config]
  rcases decode s.config.subDivDecode (fetchBytes s) with (_ | b | b) | ⟨i, rest⟩
  · rfl
  · exact congrArg Fetched.ended (unknownOpcode_overlay (s.setIr b))
  · rfl
  · rfl

/-- The step from a running state with the change, by the front of the step without it. -/
theorem step_overlay (hrun : s.status = .running) :
    step (s.overlay g o r) = ((fetch s).mapState (State.overlay g o r)).result := by
  rw [step_eq_result (s := s.overlay g o r) hrun, fetch_overlay]

end Overlay

/-! ### The streams (R35) -/

/-- Settles O24: the change that leaves FL is carried through the front of the step and through every instruction. -/
theorem streamsAreNeverRead : Obligations.StreamsAreNeverRead := by
  intro s t o r hstep
  have hrun := (step_cases hstep).1
  refine (step_overlay (g := id) (o := o) (r := r) hrun).trans ?_
  rw [step_eq_result hrun] at hstep
  cases hf : fetch s with
  | ended u =>
    rw [hf] at hstep
    obtain rfl := next_injective hstep
    rfl
  | instr i u =>
    rw [hf] at hstep
    refine (exec_overlay i rfl fun _ _ => rfl).trans ?_
    rw [show exec i u = .next t from hstep]
    rfl

/-! ### The flags (R31) -/

/-- CMP faults alike from both states, or writes all of FL and so ends alike (R152). -/
theorem execCmp_setFl (ra rb v : Byte) (s : State) :
    (execCmp ra rb s = .next (faulted .badRegister s) ∧
        execCmp ra rb (s.setFl v) = .next (faulted .badRegister (s.setFl v))) ∨
      ∃ w, execCmp ra rb s = .next (s.setFl w).autoAdvance ∧
        execCmp ra rb (s.setFl v) = .next (s.setFl w).autoAdvance := by
  by_cases hbad : ∃ b ∈ [ra, rb], NamesNoRegister s.config b
  · exact .inl ⟨withRegs_of_namesNone hbad, withRegs_of_namesNone hbad⟩
  · have hnames (b : Byte) (hb : b ∈ [ra, rb]) : ∃ k, NamesRegister s.config b k := by
      cases hk : regIndex s.config.regIndex b with
      | none => exact absurd ⟨b, hb, regIndex_eq_none.1 hk⟩ hbad
      | some k => exact ⟨k, names_iff.2 hk⟩
    obtain ⟨i, hi⟩ := hnames ra (by simp)
    obtain ⟨j, hj⟩ := hnames rb (by simp)
    exact .inr ⟨_, execCmp_eq hi hj, execCmp_eq (s := s.setFl v) hi hj⟩

/-- 0xA7 is CMP's opcode alone (R87). -/
theorem eq_cmp_of_opcode {i : Instr} (h : i.opcode = 0xA7) : ∃ ra rb, i = .cmp ra rb := by
  cases i with
  | cmp ra rb => exact ⟨ra, rb, rfl⟩
  | _ => simp [Instr.opcode] at h

/-- A front that ends the step with CMP's opcode in IR has recorded a fault: the byte has an entry (R113). -/
theorem fetch_ended_not_cmp {s t : State} (h : fetch s = .ended t) : ¬ (t.ir = 0xA7 ∧ t.faultCode = .none) := by
  have hf := fetch_cases s
  rw [h] at hf
  rintro ⟨hir, hcode⟩
  cases hf with
  | pcOut | operandOut => cases hcode
  | unknown _ b _ hnone =>
    rw [State.unknownOpcode_ir] at hir
    rw [show b = 0xA7 from hir] at hnone
    exact absurd hnone (lookup_opcode_ne_none (i := .cmp 0 0) rfl)

theorem fetch_instr_eq {s t : State} {i : Instr} (h : fetch s = .instr i t) : t = s.setIr i.opcode := by
  have hf := fetch_cases s
  rw [h] at hf
  cases hf
  rfl

/-- A new FL with the old E, before the instruction in IR: CMP faults alike or overwrites FL, and every other
instruction carries it along. -/
theorem exec_setFl {i : Instr} {s t : State} {v : Byte} (hir : s.ir = i.opcode) (hnone : s.faultCode = .none)
    (hE : flagE v = flagE s.fl) (hexec : exec i s = .next t) :
    exec i (s.setFl v) = .next { t with fl := if t.ir = 0xA7 ∧ t.faultCode = .none then t.fl else v } := by
  by_cases hcmp : ∃ ra rb, i = .cmp ra rb
  · obtain ⟨ra, rb, rfl⟩ := hcmp
    rcases execCmp_setFl ra rb v s with ⟨hold, hnew⟩ | ⟨w, hold, hnew⟩
    · obtain rfl := next_injective (hold.symm.trans hexec)
      rw [if_neg (by simp [faulted])]
      exact hnew
    · obtain rfl := next_injective (hold.symm.trans hexec)
      rw [if_pos ⟨(State.autoAdvance_ir _).trans hir, (State.autoAdvance_faultCode _).trans hnone⟩]
      exact hnew
  · have hother : ¬ (t.ir = 0xA7 ∧ t.faultCode = .none) := by
      rintro ⟨h, -⟩
      rw [(exec_effect hexec).ir, hir] at h
      exact hcmp (eq_cmp_of_opcode h)
    have hcarried := exec_overlay (g := fun _ => v) (o := []) (r := []) i hE fun h => absurd h hcmp
    rw [hexec] at hcarried
    rw [if_neg hother]
    exact hcarried

/-- Settles O23, by the front of the step: an ended one carries the new FL along, and the instruction of a decoded one
does as `exec_setFl` says (R31). -/
theorem flagsGAndLHaveNoReader : Obligations.FlagsGAndLHaveNoReader := by
  intro s t v hnone hE hstep
  have hrun := (step_cases hstep).1
  refine (step_overlay (g := fun _ => v) (o := []) (r := []) hrun).trans ?_
  rw [step_eq_result hrun] at hstep
  cases hf : fetch s with
  | ended u =>
    rw [hf] at hstep
    obtain rfl := next_injective hstep
    rw [if_neg (fetch_ended_not_cmp hf)]
    rfl
  | instr i u =>
    rw [hf] at hstep
    obtain rfl := fetch_instr_eq hf
    exact exec_setFl (s := s.setIr i.opcode) rfl hnone hE hstep

end Sys2Proof.Machine
end
